-- ==== Sys2Proof/Word.lean ====
section
/-! DEFINITION. The value types of the core: byte, four-byte word, command word and the three byte buffers
(00_scope.md rules R6, R7, R9, R11). The buffers are vectors and no list of cells: DESIGN CHOICE, safe (log entry 5). -/

namespace Sys2Proof

/-- A byte: an unsigned 8-bit value, bit 7 most significant (rule R7). -/
abbrev Byte := BitVec 8

/-- A command word, the 32-bit value the host presents (rules R7, R70). -/
abbrev CommandWord := BitVec 32

/-- A block: 16 bytes in stream order; matrix element row `r`, column `c` is byte `4·c + r` (rule R9). -/
abbrev Block := Vector Byte 16

/-- The raw key buffer KEY: 32 bytes, byte 0 the first byte of the key (rule R22). -/
abbrev KeyBuffer := Vector Byte 32

/-- The key-schedule store KSB: 240 bytes, four of them to each of the 60 words (rule R23). -/
abbrev ScheduleStore := Vector Byte 240

/-- A word: exactly four bytes, `b0` its first byte (rules R7, R51). No integer byte order is ever chosen. -/
structure KeyWord where
  b0 : Byte
  b1 : Byte
  b2 : Byte
  b3 : Byte
deriving DecidableEq, Repr

end Sys2Proof
end

