-- ==== Sys2Proof/Config.lean ====
section
/-! DEFINITION. What is fixed for the core (00_scope.md rules R5, R6) and its one open parameter, RESET_DATA
(10_state.md rule R34, 93_implementation_defined.md U1). The constant tables SBOX and INVSBOX and the matrices
(rule R30) are plain definitions of the units that hold them, under Machine/. -/

namespace Sys2Proof

/-- The key size of a schedule, one of three (rules R5, R120). The value NK = 0 of rule R27 is no key size: it is
the absence of one (DEDUCED, safe, log entry 6). -/
inductive KeySize where
  | k128
  | k192
  | k256
deriving DecidableEq, Repr

/-- RESET_DATA: the 289 bytes the spec leaves unspecified after a reset event (rule R34). It is drawn at each reset
event, so it is an argument of that event and never a constant of the model. -/
structure ResetData where
  res : Byte
  blk : Block
  key : KeyBuffer
  ksb : ScheduleStore
deriving DecidableEq, Repr

/-- The RESET_DATA of the fixed state `State.reset`, every byte zero. DESIGN CHOICE, unsafe (log entry 1): the spec
gives no value and allows every one. -/
def ResetData.zero : ResetData where
  res := 0
  blk := Vector.replicate 16 0
  key := Vector.replicate 32 0
  ksb := Vector.replicate 240 0

/-- The value of STATUS, a single 4-bit field (rules R6, R25). -/
abbrev StatusCode := BitVec 4

end Sys2Proof
end

