-- ==== Sys2Proof/Syntax.lean ====
section
/-! DEFINITION. The commands as data: the 20 opcodes, the four formats, the instructions with their operands
(30_encoding.md rules R72 to R74), and a line of assembler source (rules R77, R78). -/

namespace Sys2Proof

/-- The 20 rows of the opcode map, in its order (rule R74). -/
inductive Opcode where
  | gfadd | gfsub | gfmul
  | sub | isub
  | keywr | setklen | kexp | ksrd
  | blkwr | blkrd
  | subbytes | invsubbytes | shiftrows | invshiftrows | mixcolumns | invmixcolumns | addroundkey
  | encblk | decblk
deriving DecidableEq, Repr

/-- The four command formats (rule R72). -/
inductive Format where
  /-- No operand. -/
  | n
  /-- One operand, field `a`. -/
  | a
  /-- Two operands, fields `a` and `b`. -/
  | ab
  /-- One 16-bit immediate. -/
  | i
deriving DecidableEq, Repr

/-- A command with its operands, one constructor per row of the opcode table (rule R74). Every operand has the
width of its field (rule R73), so every term of this type can be encoded: an index outside its buffer is a
well-formed command that ends in `IllegalOperand` (rule R186). -/
inductive Instr where
  | gfadd (a b : Byte)
  | gfsub (a b : Byte)
  | gfmul (a b : Byte)
  | sub (a : Byte)
  | isub (a : Byte)
  | keywr (idx val : Byte)
  | setklen (n : Byte)
  | kexp (imm16 : BitVec 16)
  | ksrd (idx : Byte)
  | blkwr (idx val : Byte)
  | blkrd (idx : Byte)
  | subbytes
  | invsubbytes
  | shiftrows
  | invshiftrows
  | mixcolumns
  | invmixcolumns
  | addroundkey (n : Byte)
  | encblk
  | decblk
deriving DecidableEq, Repr

/-- One line of assembler source (rules R77, R78): a mnemonic with its operands as numbers, or one of the three
pseudo-instructions, whose hexadecimal strings are given as the bytes they spell. -/
inductive AsmLine where
  | command (op : Opcode) (operands : List Nat)
  | ldkey (bytes : List Byte)
  | ldblk (bytes : List Byte)
  | rdblk
deriving DecidableEq, Repr

end Sys2Proof
end

