-- ==== Sys2Proof/Decode.lean ====
section
/-! DEFINITION. The decoder, total on all 2^32 command words, and the encoder (30_encoding.md rules R70 to R77).
A word that matches no row of the opcode table is refused by name: an unassigned opcode, or an assigned opcode with
a bit set in a field its format requires to be zero (rule R75). -/

namespace Sys2Proof

/-- Why a command word is the illegal command: cases (a) and (b) of rule R75. -/
inductive DecodeError where
  /-- The opcode byte is not one of the 20 assigned values. -/
  | unassignedOpcode (op : Byte)
  /-- The opcode is assigned and a must-be-zero field of its format is not zero. -/
  | nonZeroField (op : Opcode)
deriving DecidableEq, Repr

/-! The fields of a command word (rules R71, R73). -/

/-- `op = cw[31:24]`. -/
def fieldOp (cw : CommandWord) : Byte := cw.extractLsb' 24 8

/-- `a = cw[23:16]`. -/
def fieldA (cw : CommandWord) : Byte := cw.extractLsb' 16 8

/-- `b = cw[15:8]`. -/
def fieldB (cw : CommandWord) : Byte := cw.extractLsb' 8 8

/-- `imm16 = cw[15:0]`. -/
def fieldImm16 (cw : CommandWord) : BitVec 16 := cw.extractLsb' 0 16

/-! The opcode map (rule R74). -/

/-- The opcode byte of each command. -/
def opcodeByte : Opcode → Byte
  | .gfadd => 0x01
  | .gfsub => 0x02
  | .gfmul => 0x03
  | .sub => 0x08
  | .isub => 0x09
  | .keywr => 0x10
  | .setklen => 0x11
  | .kexp => 0x12
  | .ksrd => 0x13
  | .blkwr => 0x20
  | .blkrd => 0x21
  | .subbytes => 0x30
  | .invsubbytes => 0x31
  | .shiftrows => 0x32
  | .invshiftrows => 0x33
  | .mixcolumns => 0x34
  | .invmixcolumns => 0x35
  | .addroundkey => 0x36
  | .encblk => 0x40
  | .decblk => 0x41

/-- The format of each command. -/
def opcodeFormat : Opcode → Format
  | .gfadd | .gfsub | .gfmul | .keywr | .blkwr => .ab
  | .setklen | .ksrd | .blkrd | .sub | .isub | .addroundkey => .a
  | .kexp => .i
  | .subbytes | .invsubbytes | .shiftrows | .invshiftrows | .mixcolumns | .invmixcolumns | .encblk | .decblk => .n

/-- The fixed bits of each format (rule R72). -/
def formatMask : Format → CommandWord
  | .n => 0xFFFFFFFF
  | .a => 0xFF00FFFF
  | .ab => 0xFF0000FF
  | .i => 0xFFFF0000

/-- The value of a row's fixed bits, `match = op << 24` (rule R72). -/
def opcodePattern (op : Opcode) : CommandWord := (opcodeByte op).setWidth 32 <<< 24

/-- The opcode table, in the order of rule R74. -/
def opcodeTable : List Opcode :=
  [.gfadd, .gfsub, .gfmul, .sub, .isub, .keywr, .setklen, .kexp, .ksrd, .blkwr, .blkrd, .subbytes, .invsubbytes,
    .shiftrows, .invshiftrows, .mixcolumns, .invmixcolumns, .addroundkey, .encblk, .decblk]

/-- The opcode an opcode byte selects; the whole byte is compared (rule R74). -/
def opcodeOf (op : Byte) : Option Opcode := opcodeTable.find? fun o => opcodeByte o == op

/-- The instruction of an opcode with its operands taken from the fields (rule R73). -/
def instrOf (op : Opcode) (a b : Byte) (imm16 : BitVec 16) : Instr :=
  match op with
  | .gfadd => .gfadd a b
  | .gfsub => .gfsub a b
  | .gfmul => .gfmul a b
  | .sub => .sub a
  | .isub => .isub a
  | .keywr => .keywr a b
  | .setklen => .setklen a
  | .kexp => .kexp imm16
  | .ksrd => .ksrd a
  | .blkwr => .blkwr a b
  | .blkrd => .blkrd a
  | .subbytes => .subbytes
  | .invsubbytes => .invsubbytes
  | .shiftrows => .shiftrows
  | .invshiftrows => .invshiftrows
  | .mixcolumns => .mixcolumns
  | .invmixcolumns => .invmixcolumns
  | .addroundkey => .addroundkey a
  | .encblk => .encblk
  | .decblk => .decblk

/-- The decoder. A word encodes the command of a row exactly when `cw & mask = match` (rule R72). -/
def decode (cw : CommandWord) : Except DecodeError Instr :=
  match opcodeOf (fieldOp cw) with
  | none => .error (.unassignedOpcode (fieldOp cw))
  | some op =>
    if cw &&& formatMask (opcodeFormat op) = opcodePattern op then
      .ok (instrOf op (fieldA cw) (fieldB cw) (fieldImm16 cw))
    else .error (.nonZeroField op)

/-! The encoder: the fields laid side by side as the picture of rule R71 has them, unused fields zero (rules R72,
R77). -/

/-- The row of the opcode table an instruction belongs to. -/
def instrOpcode : Instr → Opcode
  | .gfadd _ _ => .gfadd
  | .gfsub _ _ => .gfsub
  | .gfmul _ _ => .gfmul
  | .sub _ => .sub
  | .isub _ => .isub
  | .keywr _ _ => .keywr
  | .setklen _ => .setklen
  | .kexp _ => .kexp
  | .ksrd _ => .ksrd
  | .blkwr _ _ => .blkwr
  | .blkrd _ => .blkrd
  | .subbytes => .subbytes
  | .invsubbytes => .invsubbytes
  | .shiftrows => .shiftrows
  | .invshiftrows => .invshiftrows
  | .mixcolumns => .mixcolumns
  | .invmixcolumns => .invmixcolumns
  | .addroundkey _ => .addroundkey
  | .encblk => .encblk
  | .decblk => .decblk

/-- Formats N, A and AB: `op`, `a`, `b` and a zero byte, an absent operand being 0. -/
def packBytes (op a b : Byte) : CommandWord := op ++ a ++ b ++ (0 : Byte)

/-- Format I: `op`, a zero byte and the 16-bit immediate. -/
def packImm (op : Byte) (imm16 : BitVec 16) : CommandWord := op ++ (0 : Byte) ++ imm16

/-- The command word of an instruction (rule R77). -/
def encode (i : Instr) : CommandWord :=
  let op := opcodeByte (instrOpcode i)
  match i with
  | .gfadd a b | .gfsub a b | .gfmul a b | .keywr a b | .blkwr a b => packBytes op a b
  | .sub a | .isub a | .setklen a | .ksrd a | .blkrd a | .addroundkey a => packBytes op a 0
  | .kexp imm16 => packImm op imm16
  | .subbytes | .invsubbytes | .shiftrows | .invshiftrows | .mixcolumns | .invmixcolumns | .encblk | .decblk =>
    packBytes op 0 0

/-- The command word whose low `nbits` bits are those of `w` and whose other bits are 0. -/
def tableWord (nbits w : Nat) : CommandWord := BitVec.ofNat 32 (w % 2 ^ nbits)

/-- What the decoder reads from a word numbered as the opcode table numbers it: every command is one 32-bit word
(rule R70), presented whole, so there is no byte order to lay out. -/
def decodeTableWord (nbits w : Nat) : Option Instr :=
  if nbits ≤ 32 then (decode (tableWord nbits w)).toOption else none

end Sys2Proof
end

