-- ==== Sys2Proof/Machine/State.lean ====
section
/-! DEFINITION. The state of the core (10_state.md rules R20 to R34), the events the host has still to present
(00_scope.md rule R12, 70_reset_and_hazards.md rules R200, R202, R203), and the outcomes of a step that are no next
state. -/

namespace Sys2Proof.Machine

/-- What the host does to the core, one event at a time: it presents a command word (rule R203), or it asserts reset,
which comes with its own RESET_DATA (rule R200; DEDUCED, safe, log entry 4). Observing RES and STATUS changes nothing and
is no event (DEDUCED, safe, log entry 15). -/
inductive HostEvent where
  | command (cw : CommandWord)
  | reset (data : ResetData)
deriving DecidableEq, Repr

/-- The error kinds (rule R181). -/
inductive ErrorKind where
  /-- KEXP: the selector is not 128, 192 or 256 (rule R182). -/
  | invalidKeySize
  /-- KEXP: KEYLEN is not the length the selector asks for (rule R183). -/
  | invalidKeyLength
  /-- Only the host procedure `decrypt`; the core never raises it (rule R184). -/
  | invalidCiphertextLength
  /-- The word is no command (rule R185). -/
  | illegalCommand
  /-- An index or round number outside its range (rule R186). -/
  | illegalOperand
  /-- A command that needs a schedule while NK = 0 (rule R187). -/
  | noSchedule
deriving DecidableEq, Repr

/-- No step of this machine faults: an error of the spec is a value written to STATUS (rules R180, R189), "a run
cannot hang, cannot fault into a dead state" (rule R202). The type has no constructor, so that this is seen from it.
Nobody raises it. DEDUCED, safe (log entry 8). -/
inductive Fault where
deriving DecidableEq, Repr

/-- The refusals. -/
inductive Refusal where
  /-- Raised by an arm of `exec` that has no meaning yet; no arm does. Safe: the machine stops. -/
  | notModelled (mnemonic : String)
deriving DecidableEq, Repr

/-- The seven items of rule R20, and the model's own list of the host's events still to come.

The spec's core has no other state (rules R29, R31, R32): no program counter, no general registers, no flags. -/
structure State where
  /-- BLK, the block being transformed (rule R21). -/
  blk : Block
  /-- KEY, the raw key as loaded by the host (rule R22). -/
  key : KeyBuffer
  /-- KEYLEN, the number of key bytes the host declares (rule R26). -/
  keyLen : Byte
  /-- KSB, the key-schedule store (rule R23). -/
  ksb : ScheduleStore
  /-- NK, `none` for 0 (no schedule since reset), else the size of the schedule in KSB (rule R27). -/
  nk : Option KeySize
  /-- RES, the byte result of the last successful result-producing command (rule R24). -/
  res : Byte
  /-- STATUS, the outcome of the last command (rule R25). -/
  status : StatusCode
  /-- The model's own field: the host's events still to be presented, in the order it presents them (rule R202).
  DESIGN CHOICE, safe (log entry 2). -/
  host : List HostEvent
deriving DecidableEq, Repr

/-- The machine right after reset (rule R34): STATUS, NK and KEYLEN are 0; RES, BLK, KEY and KSB hold RESET_DATA, here
the one named by log entry 1; the host has presented nothing. Every other RESET_DATA is reached by the reset event. -/
def State.reset : State where
  blk := ResetData.zero.blk
  key := ResetData.zero.key
  keyLen := 0
  ksb := ResetData.zero.ksb
  nk := none
  res := ResetData.zero.res
  status := 0
  host := []

end Sys2Proof.Machine
end

