-- ==== Sys2Proof/Machine/Flags.lean ====
section
/-! DEFINITION. STATUS, the only flag-like state (10_state.md rules R25, R28): the codes of 60_exceptions.md rule
R181. There are no condition codes, no carry and no overflow. -/

namespace Sys2Proof.Machine

/-- STATUS after a command that succeeds: `OK` (rule R181). -/
def statusOk : StatusCode := 0

/-- The STATUS code of each error kind (rule R181). -/
def errorCode : ErrorKind → StatusCode
  | .invalidKeySize => 1
  | .invalidKeyLength => 2
  | .invalidCiphertextLength => 3
  | .illegalCommand => 4
  | .illegalOperand => 5
  | .noSchedule => 6

/-- The codes the core itself can write: 0, 1, 2, 4, 5, 6. Code 3 is the host's and 7 to 15 are unused (rule R181,
93_implementation_defined.md U4). -/
def coreStatusCodes : List StatusCode :=
  [statusOk, errorCode .invalidKeySize, errorCode .invalidKeyLength, errorCode .illegalCommand,
    errorCode .illegalOperand, errorCode .noSchedule]

end Sys2Proof.Machine
end

