-- ==== Sys2Proof/Machine/Ops.lean ====
section
/-! DEFINITION. The named operations on the state: one writer per item, the ways a command ends, raising an error
(this machine's whole "trap entry"), the schedule check, and the reset event. -/

namespace Sys2Proof

/-! Key sizes (rules R5, R27, R120). -/

/-- Nk, the key length in words. -/
def KeySize.nk : KeySize → Nat
  | .k128 => 4
  | .k192 => 6
  | .k256 => 8

/-- The selector `keySizeBits = 32·Nk`. -/
def KeySize.bits (k : KeySize) : Nat := 32 * k.nk

/-- The key length in bytes, `4·Nk`. -/
def KeySize.keyBytes (k : KeySize) : Nat := 4 * k.nk

/-- Nr, the number of rounds, `Nk + 6`, as a round number (rule R11: 0 to 14). -/
def KeySize.nr : KeySize → Fin 15
  | .k128 => 10
  | .k192 => 12
  | .k256 => 14

/-- The words of a schedule, `4·(Nk + 7)`. -/
def KeySize.words (k : KeySize) : Nat := 4 * (k.nk + 7)

/-- The bytes of a schedule, `16·(Nk + 7)`. -/
def KeySize.scheduleBytes (k : KeySize) : Nat := 16 * (k.nk + 7)

end Sys2Proof

namespace Sys2Proof.Machine

/-- What a command answers. -/
abbrev Result := Host.Outcome State Fault Refusal

/-! Writing one item of the state. -/

def State.setBlk (s : State) (v : Block) : State := { s with blk := v }
def State.setKey (s : State) (v : KeyBuffer) : State := { s with key := v }
def State.setKeyLen (s : State) (v : Byte) : State := { s with keyLen := v }
def State.setKsb (s : State) (v : ScheduleStore) : State := { s with ksb := v }
def State.setNk (s : State) (v : Option KeySize) : State := { s with nk := v }
def State.setRes (s : State) (v : Byte) : State := { s with res := v }
def State.setStatus (s : State) (v : StatusCode) : State := { s with status := v }
def State.setHost (s : State) (v : List HostEvent) : State := { s with host := v }

/-- NK as the spec numbers it: 0, 4, 6 or 8 (rule R27). -/
def State.nkValue (s : State) : Nat :=
  match s.nk with
  | none => 0
  | some k => k.nk

/-- KSVALID, `NK ≠ 0`: a schedule has been built since reset (rule R27). Derived, not state. -/
def State.ksValid (s : State) : Bool := s.nk.isSome

/-! How a command ends. -/

/-- `ok`: the command ends successfully and STATUS becomes 0 (rule R10). -/
def finish (s : State) : Result := .next (s.setStatus statusOk)

/-- `raise E`: STATUS receives the code and nothing else changes (rules R10, R180). This is all there is of trap
entry: nothing is saved, no mode changes, control goes nowhere (rule R189), and there is nothing to return from
(rule R190). -/
def raise (e : ErrorKind) (s : State) : Result := .next (s.setStatus (errorCode e))

/-- A command whose result is a byte: RES receives it (rule R24). -/
def produce (v : Byte) (s : State) : Result := finish (s.setRes v)

/-- A command that transforms BLK in place: all 16 bytes are computed from the old block (rules R10, R21). -/
def transform (f : Block → Block) (s : State) : Result := finish (s.setBlk (f s.blk))

/-- The check of the commands that need a schedule, made before any other (rules R187, R188). -/
def withSchedule (s : State) (f : KeySize → Result) : Result :=
  match s.nk with
  | none => raise .noSchedule s
  | some k => f k

/-! The reset event (rule R200). -/

/-- The state after a reset event with this RESET_DATA: STATUS, NK and KEYLEN are 0, the data are those of the event
(rule R34). The host's later events are not the core's and stay. -/
def applyReset (d : ResetData) (s : State) : State where
  blk := d.blk
  key := d.key
  keyLen := 0
  ksb := d.ksb
  nk := none
  res := d.res
  status := statusOk
  host := s.host

end Sys2Proof.Machine
end

