-- ==== Sys2Proof/Machine/Operands.lean ====
section
/-! DEFINITION. The operand forms: an immediate index checked against its space (20_memory.md rule R56), a round
number (44_round_transforms.md rule R153), the key-size selector (43_key_schedule.md rules R120, R126), and the reads
and writes of the byte spaces. An operand is the field taken unsigned, with nothing added (30_encoding.md rule R73). -/

namespace Sys2Proof.Machine

/-- An index of KEY, 0 to 31. -/
def keyIndex? (idx : Byte) : Option (Fin 32) :=
  if h : idx.toNat < 32 then some ⟨idx.toNat, h⟩ else none

/-- An index of BLK, 0 to 15. -/
def blkIndex? (idx : Byte) : Option (Fin 16) :=
  if h : idx.toNat < 16 then some ⟨idx.toNat, h⟩ else none

/-- Every index of a schedule is an index of the store. -/
theorem scheduleBytes_le (k : KeySize) : k.scheduleBytes ≤ 240 := by
  cases k <;> decide

/-- An index of the schedule, 0 to `16·(NR + 1) − 1`: the limit depends on the size of the schedule now held. -/
def scheduleIndex? (k : KeySize) (idx : Byte) : Option (Fin 240) :=
  if h : idx.toNat < k.scheduleBytes then some ⟨idx.toNat, Nat.lt_of_lt_of_le h (scheduleBytes_le k)⟩ else none

/-- A round number, 0 to NR. -/
def roundNumber? (k : KeySize) (n : Byte) : Option (Fin 15) :=
  if h : n.toNat ≤ k.nr.val then some ⟨n.toNat, Nat.lt_of_le_of_lt h k.nr.isLt⟩ else none

/-- The key size a selector names: 128, 192 or 256 bits and no other. -/
def keySize? (imm16 : BitVec 16) : Option KeySize :=
  if imm16.toNat = 128 then some .k128
  else if imm16.toNat = 192 then some .k192
  else if imm16.toNat = 256 then some .k256
  else none

/-- KEYLEN is the length the key size asks for, `imm16 / 8` bytes (rule R126). -/
def keyLengthMatches (k : KeySize) (s : State) : Bool := decide (s.keyLen.toNat = k.keyBytes)

/-! One-byte accesses (rules R10, R55): `MemRead` and `MemWrite` of the three spaces. A read has no side effect. -/

def readBlk (s : State) (i : Fin 16) : Byte := s.blk[i]
def readKsb (s : State) (i : Fin 240) : Byte := s.ksb[i]
def writeBlk (s : State) (i : Fin 16) (v : Byte) : State := s.setBlk (s.blk.set i.val v i.isLt)
def writeKey (s : State) (i : Fin 32) (v : Byte) : State := s.setKey (s.key.set i.val v i.isLt)

end Sys2Proof.Machine
end

