-- ==== Sys2Proof/Machine/GfUnit.lean ====
section
/-! DEFINITION. The GF(2^8) arithmetic unit (41_gf_arithmetic.md): the field operations and the commands GFADD, GFSUB
and GFMUL. -/

namespace Sys2Proof.Machine

/-- The reduction constant: the low 8 bits of `x^8 + x^4 + x^3 + x + 1` (rule R100). -/
def reductionConstant : Byte := 0x1B

/-- Addition in the field (rule R101). -/
def gadd (a b : Byte) : Byte := a ^^^ b

/-- Subtraction in the field, the same function as addition (rule R101). -/
def gsub (a b : Byte) : Byte := a ^^^ b

/-- The step of the running `a` in one iteration: shift left by one bit, and reduce if the bit pushed out was set
(rule R102). -/
def shiftReduce (a : Byte) : Byte := if a.getLsbD 7 then (a <<< 1) ^^^ reductionConstant else a <<< 1

/-- `n` iterations of the multiplication: accumulate with `a` as it is before the shift, then step `a`, then shift
`b` right (rule R102). -/
def gmulLoop : Nat → Byte → Byte → Byte → Byte
  | 0, _, _, acc => acc
  | n + 1, a, b, acc => gmulLoop n (shiftReduce a) (b >>> 1) (if b.getLsbD 0 then acc ^^^ a else acc)

/-- Multiplication in the field: 8 iterations from an accumulator of 0 (rule R102). -/
def gmul (a b : Byte) : Byte := gmulLoop 8 a b 0

/-- Doubling (rule R103). -/
def xtime (a : Byte) : Byte := gmul a 0x02

/-- GFADD a, b (rule R104). -/
def execGfadd (a b : Byte) (s : State) : Result := produce (gadd a b) s

/-- GFSUB a, b (rule R105). -/
def execGfsub (a b : Byte) (s : State) : Result := produce (gsub a b) s

/-- GFMUL a, b (rule R106). -/
def execGfmul (a b : Byte) (s : State) : Result := produce (gmul a b) s

end Sys2Proof.Machine
end

