-- ==== Sys2Proof/Machine/RoundTransforms.lean ====
section
/-! DEFINITION. The round-transform datapaths (44_round_transforms.md): the functions on a block and the seven
commands that apply them to BLK. Block byte `k` is matrix element row `k mod 4`, column `k / 4` (rule R9). -/

namespace Sys2Proof.Machine

/-- SubBytes (rule R140). -/
def subBytes (S : Block) : Block := Vector.ofFn fun k => sbox S[k]

/-- InvSubBytes (rule R141). -/
def invSubBytes (S : Block) : Block := Vector.ofFn fun k => invSbox S[k]

/-- Element `s[r][c]` of a block, the row and the column taken mod 4 (rule R9). -/
def element (S : Block) (r c : Nat) : Byte := S[4 * (c % 4) + r % 4]

/-- ShiftRows: row `r` is rotated left by `r` columns, `s'[r][c] = s[r][(c + r) mod 4]` (rule R142). -/
def shiftRows (S : Block) : Block :=
  Vector.ofFn fun k => element S (k.val % 4) (k.val / 4 + k.val % 4)

/-- InvShiftRows: row `r` is rotated right by `r` columns, `s'[r][c] = s[r][(c + 4 − r) mod 4]` (rule R143). -/
def invShiftRows (S : Block) : Block :=
  Vector.ofFn fun k => element S (k.val % 4) (k.val / 4 + 4 - k.val % 4)

/-- The factors of one matrix row: `m0` multiplies the column's byte of row 0, and so on (rule R144). -/
structure MixRow where
  m0 : Byte
  m1 : Byte
  m2 : Byte
  m3 : Byte
deriving DecidableEq, Repr

/-- The forward matrix, output row by output row (rule R144). -/
def mixRow : Fin 4 → MixRow
  | 0 => ⟨2, 3, 1, 1⟩
  | 1 => ⟨1, 2, 3, 1⟩
  | 2 => ⟨1, 1, 2, 3⟩
  | 3 => ⟨3, 1, 1, 2⟩

/-- The inverse matrix, output row by output row (rule R145). -/
def invMixRow : Fin 4 → MixRow
  | 0 => ⟨14, 11, 13, 9⟩
  | 1 => ⟨9, 14, 11, 13⟩
  | 2 => ⟨13, 9, 14, 11⟩
  | 3 => ⟨11, 13, 9, 14⟩

/-- A row times column `c` of the block: the XOR of four products (rule R144). -/
def rowTimesColumn (row : MixRow) (S : Block) (c : Nat) : Byte :=
  gmul row.m0 (element S 0 c) ^^^ gmul row.m1 (element S 1 c) ^^^ gmul row.m2 (element S 2 c) ^^^
    gmul row.m3 (element S 3 c)

/-- Every column of the block replaced by the matrix times it, from the old bytes (rule R144). -/
def mixWith (rows : Fin 4 → MixRow) (S : Block) : Block :=
  Vector.ofFn fun k => rowTimesColumn (rows ⟨k.val % 4, Nat.mod_lt _ (by decide)⟩) S (k.val / 4)

/-- MixColumns (rule R144). -/
def mixColumns (S : Block) : Block := mixWith mixRow S

/-- InvMixColumns (rule R145). -/
def invMixColumns (S : Block) : Block := mixWith invMixRow S

/-- Round key `n` of a store: bytes `16·n` to `16·n + 15`, laid out as a block (rules R23, R53). -/
def roundKey (ks : ScheduleStore) (n : Fin 15) : Block := Vector.ofFn fun k => ks[16 * n.val + k.val]

/-- AddRoundKey: every byte XORed with the byte of the round key at the same offset (rule R146). -/
def addRoundKey (ks : ScheduleStore) (n : Fin 15) (S : Block) : Block :=
  Vector.ofFn fun k => S[k] ^^^ (roundKey ks n)[k]

/-- SUBBYTES (rule R147). -/
def execSubbytes (s : State) : Result := transform subBytes s

/-- INVSUBBYTES (rule R148). -/
def execInvsubbytes (s : State) : Result := transform invSubBytes s

/-- SHIFTROWS (rule R149). -/
def execShiftrows (s : State) : Result := transform shiftRows s

/-- INVSHIFTROWS (rule R150). -/
def execInvshiftrows (s : State) : Result := transform invShiftRows s

/-- MIXCOLUMNS (rule R151). -/
def execMixcolumns (s : State) : Result := transform mixColumns s

/-- INVMIXCOLUMNS (rule R152). -/
def execInvmixcolumns (s : State) : Result := transform invMixColumns s

/-- ADDROUNDKEY n: NoSchedule is checked before the round number, whose limit depends on NK (rule R153). -/
def execAddroundkey (n : Byte) (s : State) : Result :=
  withSchedule s fun k =>
    match roundNumber? k n with
    | none => raise .illegalOperand s
    | some r => transform (addRoundKey s.ksb r) s

end Sys2Proof.Machine
end

