-- ==== Sys2Proof/Machine/CipherEngine.lean ====
section
/-! DEFINITION. The cipher engine (45_cipher_engine.md): the forward and the inverse cipher on one block, and the
commands ENCBLK and DECBLK. Nothing is kept between two commands but the schedule (rule R165). -/

namespace Sys2Proof.Machine

/-- The middle rounds 1 to Nr − 1, ascending (rule R160). -/
def middleRounds (k : KeySize) : List (Fin 15) :=
  (List.finRange 15).filter fun r => decide (1 ≤ r.val) && decide (r.val < k.nr.val)

/-- A middle round of the forward cipher: SubBytes, ShiftRows, MixColumns, AddRoundKey (rule R160). -/
def cipherRound (ks : ScheduleStore) (S : Block) (r : Fin 15) : Block :=
  addRoundKey ks r (mixColumns (shiftRows (subBytes S)))

/-- `Cipher(S)`: round key 0, the middle rounds ascending, and the final round without MixColumns (rule R160). -/
def cipher (k : KeySize) (ks : ScheduleStore) (S : Block) : Block :=
  addRoundKey ks k.nr (shiftRows (subBytes ((middleRounds k).foldl (cipherRound ks) (addRoundKey ks 0 S))))

/-- A middle round of the inverse cipher: InvShiftRows, InvSubBytes, AddRoundKey, InvMixColumns, in this order and
not that of the "equivalent inverse cipher" (rule R161). -/
def invCipherRound (ks : ScheduleStore) (S : Block) (r : Fin 15) : Block :=
  invMixColumns (addRoundKey ks r (invSubBytes (invShiftRows S)))

/-- `InvCipher(S)`: round key Nr, the middle rounds descending, and the final step with round key 0 (rule R161). -/
def invCipher (k : KeySize) (ks : ScheduleStore) (S : Block) : Block :=
  addRoundKey ks 0
    (invSubBytes (invShiftRows ((middleRounds k).reverse.foldl (invCipherRound ks) (addRoundKey ks k.nr S))))

/-- ENCBLK: encrypt BLK with the schedule now held (rule R162). -/
def execEncblk (s : State) : Result := withSchedule s fun k => transform (cipher k s.ksb) s

/-- DECBLK: decrypt BLK with the schedule now held, as KEXP built it (rule R163). -/
def execDecblk (s : State) : Result := withSchedule s fun k => transform (invCipher k s.ksb) s

end Sys2Proof.Machine
end

