-- ==== Sys2Proof/Machine/DataMovement.lean ====
section
/-! DEFINITION. The data-movement commands (40_data_movement.md): KEYWR, SETKLEN, BLKWR, BLKRD, KSRD. -/

namespace Sys2Proof.Machine

/-- KEYWR idx, val: write one byte of the raw key (rule R90). -/
def execKeywr (idx val : Byte) (s : State) : Result :=
  match keyIndex? idx with
  | none => raise .illegalOperand s
  | some i => finish (writeKey s i val)

/-- SETKLEN n: declare the number of key bytes; every value is accepted (rule R91). -/
def execSetklen (n : Byte) (s : State) : Result := finish (s.setKeyLen n)

/-- BLKWR idx, val: write one byte of the block buffer (rule R92). -/
def execBlkwr (idx val : Byte) (s : State) : Result :=
  match blkIndex? idx with
  | none => raise .illegalOperand s
  | some i => finish (writeBlk s i val)

/-- BLKRD idx: read one byte of the block buffer into RES (rule R93). -/
def execBlkrd (idx : Byte) (s : State) : Result :=
  match blkIndex? idx with
  | none => raise .illegalOperand s
  | some i => produce (readBlk s i) s

/-- KSRD idx: read one byte of the key schedule into RES; NoSchedule is checked before the index (rule R94). -/
def execKsrd (idx : Byte) (s : State) : Result :=
  withSchedule s fun k =>
    match scheduleIndex? k idx with
    | none => raise .illegalOperand s
    | some i => produce (readKsb s i) s

end Sys2Proof.Machine
end

