-- ==== Sys2Proof/Machine/KeyScheduler.lean ====
section
/-! DEFINITION. The key scheduler (43_key_schedule.md): the word functions, the round constants, the expansion, and
the command KEXP. -/

namespace Sys2Proof.Machine

/-! Words (rules R7, R121). -/

/-- The word of four zero bytes. -/
def zeroWord : KeyWord := ⟨0, 0, 0, 0⟩

/-- Byte `j` of a word, `j` in 0 to 3. -/
def wordByte (w : KeyWord) (j : Nat) : Byte :=
  match j with
  | 0 => w.b0
  | 1 => w.b1
  | 2 => w.b2
  | _ => w.b3

/-- RotWord: the first byte moves to the end (rule R121). -/
def rotWord (w : KeyWord) : KeyWord := ⟨w.b1, w.b2, w.b3, w.b0⟩

/-- SubWord: every byte through the forward table (rule R121). -/
def subWord (w : KeyWord) : KeyWord := ⟨sbox w.b0, sbox w.b1, sbox w.b2, sbox w.b3⟩

/-- XorWord: byte-wise XOR (rule R121). -/
def xorWord (u v : KeyWord) : KeyWord := ⟨u.b0 ^^^ v.b0, u.b1 ^^^ v.b1, u.b2 ^^^ v.b2, u.b3 ^^^ v.b3⟩

/-! Round constants (rule R122). -/

/-- `n` doublings of 0x01. -/
def doublings : Nat → Byte
  | 0 => 0x01
  | n + 1 => xtime (doublings n)

/-- `rc(j)` for `j ≥ 1`. `rc(0)` is never used (DESIGN CHOICE, safe, log entry 10). -/
def rc (j : Nat) : Byte := doublings (j - 1)

/-- `Rcon(j) = [rc(j), 0, 0, 0]`: the constant stands in the word's first byte. -/
def rcon (j : Nat) : KeyWord := ⟨rc j, 0, 0, 0⟩

/-! The expansion (rule R123). -/

/-- Word `i` of a list of words already computed; no call goes beyond its end (DESIGN CHOICE, safe, log entry 10). -/
def wordAt (w : List KeyWord) (i : Nat) : KeyWord := w.getD i zeroWord

/-- The four bytes of word `i < Nk` are bytes of the raw key. -/
theorem keyWord_index (k : KeySize) (i : Fin k.nk) : 4 * i.val + 3 < k.keyBytes := by
  have := i.isLt
  unfold KeySize.keyBytes
  omega

/-- Word `i < Nk`: four bytes of the raw key in stream order (rule R51). -/
def keyWord (k : KeySize) (K : Vector Byte k.keyBytes) (i : Fin k.nk) : KeyWord :=
  have h := keyWord_index k i
  ⟨K[4 * i.val], K[4 * i.val + 1], K[4 * i.val + 2], K[4 * i.val + 3]⟩

/-- The first Nk words, copied word for word from the raw key. -/
def keyWords (k : KeySize) (K : Vector Byte k.keyBytes) : List KeyWord := (List.finRange k.nk).map (keyWord k K)

/-- What is XORed with word `i − Nk` to make word `i`, from the preceding word: transformed when `i` is a multiple of
Nk, substituted only when Nk is above 6 and `i mod Nk = 4`, else as it is. -/
def scheduleTemp (nk i : Nat) (temp : KeyWord) : KeyWord :=
  if i % nk = 0 then xorWord (subWord (rotWord temp)) (rcon (i / nk))
  else if 6 < nk ∧ i % nk = 4 then subWord temp
  else temp

/-- One iteration of the expansion: word `i` is appended to the words before it. -/
def expandStep (nk : Nat) (w : List KeyWord) (i : Nat) : List KeyWord :=
  w ++ [xorWord (scheduleTemp nk i (wordAt w (i - 1))) (wordAt w (i - nk))]

/-- `KeyExpansion(K, Nk)`: `4·(Nk + 7)` words, `i` ascending from Nk. -/
def keyExpansion (k : KeySize) (K : Vector Byte k.keyBytes) : List KeyWord :=
  (List.range' k.nk (k.words - k.nk)).foldl (expandStep k.nk) (keyWords k K)

/-- `W[i]`, word `i` of the store: four bytes of KSB, the first byte first (rule R23). -/
def storedWord (ksb : ScheduleStore) (i : Fin 60) : KeyWord :=
  ⟨ksb[4 * i.val], ksb[4 * i.val + 1], ksb[4 * i.val + 2], ksb[4 * i.val + 3]⟩

/-! The command (rule R126). -/

/-- A key is no longer than the key buffer. -/
theorem keyBytes_le (k : KeySize) : k.keyBytes ≤ 32 := by
  cases k <;> decide

/-- `KEY[0 .. 4·Nk − 1]`, the raw key of this size. -/
def rawKey (k : KeySize) (key : KeyBuffer) : Vector Byte k.keyBytes :=
  Vector.ofFn fun i => key[i.val]'(Nat.lt_of_lt_of_le i.isLt (keyBytes_le k))

/-- The store after its first words are replaced by those of `w`; the words above the schedule keep what they held
(rules R23, R126). -/
def storeWords (k : KeySize) (w : List KeyWord) (old : ScheduleStore) : ScheduleStore :=
  Vector.ofFn fun i => if i.val < k.scheduleBytes then wordByte (wordAt w (i.val / 4)) (i.val % 4) else old[i]

/-- A successful KEXP: KSB and NK are written; KEY, KEYLEN, BLK and RES are not (rule R126). -/
def buildSchedule (k : KeySize) (s : State) : State :=
  (s.setKsb (storeWords k (keyExpansion k (rawKey k s.key)) s.ksb)).setNk (some k)

/-- KEXP imm16: build the key schedule from the key buffer. InvalidKeySize is checked first, then InvalidKeyLength;
on either error the old schedule stays (rule R126). -/
def execKexp (imm16 : BitVec 16) (s : State) : Result :=
  match keySize? imm16 with
  | none => raise .invalidKeySize s
  | some k => if keyLengthMatches k s then finish (buildSchedule k s) else raise .invalidKeyLength s

end Sys2Proof.Machine
end

