-- ==== Sys2Proof/Machine/Dispatch.lean ====
section
/-! DEFINITION. One arm per command, each one call of its meaning. -/

namespace Sys2Proof.Machine

-- The effect of one command on the core.
def exec (i : Instr) (s : State) : Host.Outcome State Fault Refusal :=
  match i with
  | .gfadd a b => Sys2Proof.Machine.execGfadd a b s
  | .gfsub a b => Sys2Proof.Machine.execGfsub a b s
  | .gfmul a b => Sys2Proof.Machine.execGfmul a b s
  | .sub a => Sys2Proof.Machine.execSub a s
  | .isub a => Sys2Proof.Machine.execIsub a s
  | .keywr idx val => Sys2Proof.Machine.execKeywr idx val s
  | .setklen n => Sys2Proof.Machine.execSetklen n s
  | .kexp imm16 => Sys2Proof.Machine.execKexp imm16 s
  | .ksrd idx => Sys2Proof.Machine.execKsrd idx s
  | .blkwr idx val => Sys2Proof.Machine.execBlkwr idx val s
  | .blkrd idx => Sys2Proof.Machine.execBlkrd idx s
  | .subbytes => Sys2Proof.Machine.execSubbytes s
  | .invsubbytes => Sys2Proof.Machine.execInvsubbytes s
  | .shiftrows => Sys2Proof.Machine.execShiftrows s
  | .invshiftrows => Sys2Proof.Machine.execInvshiftrows s
  | .mixcolumns => Sys2Proof.Machine.execMixcolumns s
  | .invmixcolumns => Sys2Proof.Machine.execInvmixcolumns s
  | .addroundkey n => Sys2Proof.Machine.execAddroundkey n s
  | .encblk => Sys2Proof.Machine.execEncblk s
  | .decblk => Sys2Proof.Machine.execDecblk s

end Sys2Proof.Machine
end

