-- ==== Sys2Proof/Machine/CommandPort.lean ====
section
/-! DEFINITION. The command port (00_scope.md rule R2, 30_encoding.md rules R70, R75, 60_exceptions.md rule R185):
what the core does with one word, and with one event of the host. -/

namespace Sys2Proof.Machine

/-- Execute one command word: the command it decodes to, or the illegal command, which raises IllegalCommand whatever
the reason the decoder gives (rules R75, R185, R188). -/
def runCommand (cw : CommandWord) (s : State) : Result :=
  match decode cw with
  | .ok i => exec i s
  | .error _ => raise .illegalCommand s

/-- One event of the host: a command word, or reset (rules R200, R203). -/
def runEvent (e : HostEvent) (s : State) : Result :=
  match e with
  | .command cw => runCommand cw s
  | .reset d => .next (applyReset d s)

/-- The core between commands: it "keeps all state while idle" (rule R195). That a step without a command is such a one
is DEDUCED, safe (log entry 3). -/
def idle (s : State) : Result := .next s

/-- Take the next event the host presents and let the core act on it; with none to take the core is idle (rules R58,
R202, R203: the core never acts without a command). -/
def takeEvent (s : State) : Result :=
  match s.host with
  | [] => idle s
  | e :: rest => runEvent e (s.setHost rest)

/-- The host presents an event before those it has still to present. -/
def presentEvent (e : HostEvent) (s : State) : State := s.setHost (e :: s.host)

end Sys2Proof.Machine
end

