-- ==== Sys2Proof/Machine/Step.lean ====
section
/-! DEFINITION. One step of the machine: one event of the host, completely, in the order the host presents them
(20_memory.md rule R58). -/

namespace Sys2Proof.Machine

/-- One step. Every command is atomic, so one step is one command (rule R55). -/
def step (s : State) : Host.Outcome State Fault Refusal := takeEvent s

/-- The state in which the host presents this word next: the core fetches nothing (rule R2), it takes the word at the
head of what the host has still to present. -/
def State.withFetchWord (s : State) (nbits w : Nat) : State := presentEvent (.command (tableWord nbits w)) s

end Sys2Proof.Machine
end

