-- ==== Sys2Proof/WellFormed.lean ====
section
/-! DEFINITION. The assembler's checks on a source line (30_encoding.md rules R72, R77, R78). An `Instr` needs no
check of its own: its operands have the widths of their fields (rule R73), and the core, not the assembler, judges
an index against its buffer (rules R77, R186). -/

namespace Sys2Proof

/-- The operands of a line are as many as its format has, and each fits its field (rule R77: "The assembler rejects
an operand that does not fit its field"). -/
def operandsFit : Format → List Nat → Bool
  | .n, [] => true
  | .a, [a] => decide (a ≤ 255)
  | .ab, [a, b] => decide (a ≤ 255) && decide (b ≤ 255)
  | .i, [imm16] => decide (imm16 ≤ 65535)
  | _, _ => false

/-- A source line the assembler accepts: operands that fit (rule R77), at most 32 bytes for `LDKEY`, exactly 16 for
`LDBLK` (rule R78). -/
def AsmLine.wellFormed : AsmLine → Bool
  | .command op operands => operandsFit (opcodeFormat op) operands
  | .ldkey bytes => decide (bytes.length ≤ 32)
  | .ldblk bytes => decide (bytes.length = 16)
  | .rdblk => true

end Sys2Proof
end

