-- ==== Sys2Proof/Machine/Assembler.lean ====
section
/-! DEFINITION. The assembler (30_encoding.md rules R77, R78): a line of source text to a line of syntax, and that to
command words. A text is a list of characters. Blanks and the case of digits: DESIGN CHOICE, safe (log entry 14). -/

namespace Sys2Proof.Machine

/-! Lines to words. -/

/-- The instruction of a mnemonic with its operands, in the order of the table's Operands column. -/
def instrOfOperands (op : Opcode) (operands : List Nat) : Instr :=
  instrOf op (BitVec.ofNat 8 (operands.getD 0 0)) (BitVec.ofNat 8 (operands.getD 1 0))
    (BitVec.ofNat 16 (operands.getD 0 0))

/-- The commands a line stands for: one, or the expansion of a pseudo-instruction (rule R78). -/
def expandLine : AsmLine → List Instr
  | .command op operands => [instrOfOperands op operands]
  | .ldkey bytes => (bytes.mapIdx fun i v => Instr.keywr (BitVec.ofNat 8 i) v) ++ [.setklen (BitVec.ofNat 8 bytes.length)]
  | .ldblk bytes => bytes.mapIdx fun i v => Instr.blkwr (BitVec.ofNat 8 i) v
  | .rdblk => (List.range 16).map fun k => Instr.blkrd (BitVec.ofNat 8 k)

/-- Assemble one line; a line that is not well-formed is rejected (rule R77). -/
def assembleLine (line : AsmLine) : Option (List CommandWord) :=
  if line.wellFormed then some ((expandLine line).map encode) else none

/-! Text to lines. -/

/-- The mnemonics (rule R74). -/
def mnemonic : Opcode → List Char
  | .gfadd => ['G', 'F', 'A', 'D', 'D']
  | .gfsub => ['G', 'F', 'S', 'U', 'B']
  | .gfmul => ['G', 'F', 'M', 'U', 'L']
  | .sub => ['S', 'U', 'B']
  | .isub => ['I', 'S', 'U', 'B']
  | .keywr => ['K', 'E', 'Y', 'W', 'R']
  | .setklen => ['S', 'E', 'T', 'K', 'L', 'E', 'N']
  | .kexp => ['K', 'E', 'X', 'P']
  | .ksrd => ['K', 'S', 'R', 'D']
  | .blkwr => ['B', 'L', 'K', 'W', 'R']
  | .blkrd => ['B', 'L', 'K', 'R', 'D']
  | .subbytes => ['S', 'U', 'B', 'B', 'Y', 'T', 'E', 'S']
  | .invsubbytes => ['I', 'N', 'V', 'S', 'U', 'B', 'B', 'Y', 'T', 'E', 'S']
  | .shiftrows => ['S', 'H', 'I', 'F', 'T', 'R', 'O', 'W', 'S']
  | .invshiftrows => ['I', 'N', 'V', 'S', 'H', 'I', 'F', 'T', 'R', 'O', 'W', 'S']
  | .mixcolumns => ['M', 'I', 'X', 'C', 'O', 'L', 'U', 'M', 'N', 'S']
  | .invmixcolumns => ['I', 'N', 'V', 'M', 'I', 'X', 'C', 'O', 'L', 'U', 'M', 'N', 'S']
  | .addroundkey => ['A', 'D', 'D', 'R', 'O', 'U', 'N', 'D', 'K', 'E', 'Y']
  | .encblk => ['E', 'N', 'C', 'B', 'L', 'K']
  | .decblk => ['D', 'E', 'C', 'B', 'L', 'K']

/-- The value of a digit in a base up to 16; hexadecimal digits in either case. -/
def digitValue (base : Nat) (c : Char) : Option Nat :=
  let v :=
    if '0' ≤ c ∧ c ≤ '9' then some (c.toNat - '0'.toNat)
    else if 'a' ≤ c ∧ c ≤ 'f' then some (c.toNat - 'a'.toNat + 10)
    else if 'A' ≤ c ∧ c ≤ 'F' then some (c.toNat - 'A'.toNat + 10)
    else none
  v.filter fun d => decide (d < base)

/-- A number read digit by digit on top of the value so far. -/
def digitsValue (base : Nat) : List Char → Nat → Option Nat
  | [], v => some v
  | c :: rest, v => (digitValue base c).bind fun d => digitsValue base rest (base * v + d)

/-- A decimal number, or a hexadecimal one after `0x` (rule R77). -/
def numberOf : List Char → Option Nat
  | [] => none
  | '0' :: 'x' :: c :: rest => digitsValue 16 (c :: rest) 0
  | c :: rest => digitsValue 10 (c :: rest) 0

/-- A string of pairs of hexadecimal digits, the bytes they spell (rule R78). -/
def hexBytesOf : List Char → Option (List Byte)
  | [] => some []
  | [_] => none
  | c :: d :: rest =>
    (digitsValue 16 [c, d] 0).bind fun v => (hexBytesOf rest).map fun bytes => BitVec.ofNat 8 v :: bytes

/-- A space or a tab. -/
def isBlank (c : Char) : Bool := c == ' ' || c == '\t'

/-- A text without the blanks at its two ends. -/
def trimBlanks (t : List Char) : List Char := ((t.dropWhile isBlank).reverse.dropWhile isBlank).reverse

/-- The pieces of a text between commas. -/
def splitCommas : List Char → List (List Char)
  | [] => [[]]
  | c :: rest =>
    match splitCommas rest with
    | [] => [[c]]
    | piece :: pieces => if c = ',' then [] :: piece :: pieces else (c :: piece) :: pieces

/-- The operands of a line, separated by commas. -/
def operandsOf (t : List Char) : Option (List Nat) :=
  if t = [] then some [] else (splitCommas t).mapM fun piece => numberOf (trimBlanks piece)

/-- One line of source: an empty list for a blank line or a comment, `none` for a line that is no line of the
language (rules R77, R78). A comment runs from a semicolon to the end of the line. -/
def parseLine (text : List Char) : Option (List AsmLine) :=
  let line := trimBlanks (text.takeWhile fun c => c ≠ ';')
  let name := line.takeWhile fun c => !isBlank c
  let rest := trimBlanks (line.dropWhile fun c => !isBlank c)
  if line = [] then some []
  else if name = ['L', 'D', 'K', 'E', 'Y'] then (hexBytesOf rest).map fun bytes => [.ldkey bytes]
  else if name = ['L', 'D', 'B', 'L', 'K'] then (hexBytesOf rest).map fun bytes => [.ldblk bytes]
  else if name = ['R', 'D', 'B', 'L', 'K'] then if rest = [] then some [.rdblk] else none
  else (opcodeTable.find? fun op => mnemonic op == name).bind fun op =>
    (operandsOf rest).map fun operands => [.command op operands]

/-- One line of text to the command words it stands for. -/
def assembleText (text : List Char) : Option (List CommandWord) :=
  (parseLine text).bind fun lines => (lines.mapM assembleLine).map List.flatten

end Sys2Proof.Machine
end

