-- ==== Sys2Proof/Machine/HostProcedures.lean ====
section
/-! DEFINITION. The host's side (46_block_codec_host.md, 70_reset_and_hazards.md rule R202): a run of a list of command
words, and the three procedures `buildKeySchedule`, `encrypt` and `decrypt` over one core. None of it is hardware
(00_scope.md rule R4); it is written down because the spec settles it. Each procedure is the exact sequence of commands
the spec gives it, and reports an error by its STATUS code (rule R184). -/

namespace Sys2Proof.Machine

/-- What the host sees after a command: RES and STATUS (rule R203). -/
structure Observation where
  res : Byte
  status : StatusCode
deriving DecidableEq, Repr

/-- RES and STATUS of a state, which the host may read at any time between commands. -/
def observe (s : State) : Observation := ⟨s.res, s.status⟩

/-- What a host procedure answers: the core it leaves and a value, unless a step of the core stops. -/
abbrev HostResult (α : Type) := Host.Outcome (State × α) Fault Refusal

/-- Go on with a step's next state. -/
def andThen {σ τ : Type} (r : Host.Outcome σ Fault Refusal) (f : σ → Host.Outcome τ Fault Refusal) :
    Host.Outcome τ Fault Refusal :=
  match r with
  | .next s => f s
  | .fault e => .fault e
  | .refused e => .refused e

/-- Issue one command word and wait for it to complete (rule R203): the step that takes it. -/
def issueWord (cw : CommandWord) (s : State) : Result := step (presentEvent (.command cw) s)

/-- A run: the words in order, with the observation after each (rule R202). -/
def runWords : List CommandWord → State → HostResult (List Observation)
  | [], s => .next (s, [])
  | cw :: rest, s =>
    andThen (issueWord cw s) fun t => andThen (runWords rest t) fun p => .next (p.1, observe t :: p.2)

/-- A run of instructions, each issued as its word. -/
def runInstrs (is : List Instr) (s : State) : HostResult (List Observation) := runWords (is.map encode) s

/-! The key (rule R171). -/

/-- `KEYWR i, K[i]` for every byte of a key of at most 32 bytes; a longer one is not written (rule R171). -/
def loadKeyInstrs (keyBytes : List Byte) : List Instr :=
  if keyBytes.length ≤ 32 then keyBytes.mapIdx fun i v => .keywr (BitVec.ofNat 8 i) v else []

/-- `buildKeySchedule(keyBytes, keySizeBits)`: the answer is a STATUS code, 0 for success. A selector that cannot be
encoded is answered by the host itself, and no command is issued (rule R171, 95_test_vectors.md section 2.10; DEDUCED,
unsafe, log entry 11). -/
def buildKeySchedule (keyBytes : List Byte) (keySizeBits : Nat) (s : State) : HostResult StatusCode :=
  if 65535 < keySizeBits then .next (s, errorCode .invalidKeySize)
  else
    andThen
      (runInstrs
        (loadKeyInstrs keyBytes ++
          [.setklen (BitVec.ofNat 8 (min keyBytes.length 255)), .kexp (BitVec.ofNat 16 keySizeBits)]) s)
      fun p => .next (p.1, p.1.status)

/-! Blocks (rules R172, R173). -/

/-- Byte `k` of chunk `j` of a buffer, zero-padded on the right (rule R172). -/
def chunkByte (buffer : List Byte) (j k : Nat) : Byte := buffer.getD (16 * j + k) 0

/-- The 16 BLKWR commands that load chunk `j`. -/
def loadBlockInstrs (buffer : List Byte) (j : Nat) : List Instr :=
  (List.range 16).map fun k => .blkwr (BitVec.ofNat 8 k) (chunkByte buffer j k)

/-- The 16 BLKRD commands that read the block (rule R78, `RDBLK`). -/
def readBlockInstrs : List Instr := (List.range 16).map fun k => .blkrd (BitVec.ofNat 8 k)

/-- One chunk: load it, run the cipher command, check STATUS (rule R177), and read the 16 result bytes. -/
def processChunk (command : Instr) (buffer : List Byte) (j : Nat) (s : State) :
    HostResult (Except StatusCode (List Byte)) :=
  andThen (runInstrs (loadBlockInstrs buffer j ++ [command]) s) fun p =>
    if p.1.status = statusOk then
      andThen (runInstrs readBlockInstrs p.1) fun q => .next (q.1, .ok (q.2.map Observation.res))
    else .next (p.1, .error p.1.status)

/-- The chunks of a buffer in order, the result bytes appended; the first that fails fails the whole call (rule
R177) and ends it (DESIGN CHOICE, unsafe, log entry 13). -/
def processChunks (command : Instr) (buffer : List Byte) : List Nat → State → HostResult (Except StatusCode (List Byte))
  | [], s => .next (s, .ok [])
  | j :: rest, s =>
    andThen (processChunk command buffer j s) fun p =>
      match p.2 with
      | .error e => .next (p.1, .error e)
      | .ok out =>
        andThen (processChunks command buffer rest p.1) fun q =>
          match q.2 with
          | .error e => .next (q.1, .error e)
          | .ok more => .next (q.1, .ok (out ++ more))

/-- `encrypt(buffer)`: ⌈L / 16⌉ chunks, the last one zero-padded; nothing is added when L is a multiple of 16 (rule
R172). -/
def encryptBuffer (buffer : List Byte) (s : State) : HostResult (Except StatusCode (List Byte)) :=
  processChunks .encblk buffer (List.range ((buffer.length + 15) / 16)) s

/-- `decrypt(buffer)`: InvalidCiphertextLength before any command when L is no multiple of 16 (rule R173). Nothing is
stripped from the output (rule R175). -/
def decryptBuffer (buffer : List Byte) (s : State) : HostResult (Except StatusCode (List Byte)) :=
  if buffer.length % 16 = 0 then processChunks .decblk buffer (List.range (buffer.length / 16)) s
  else .next (s, .error (errorCode .invalidCiphertextLength))

end Sys2Proof.Machine
end

