-- ==== Sys2Proof/Safety.lean ====
section
/-! DEFINITION. The terms in which claims about a run are made: what every step keeps, and what two states must agree
on to look the same to the host. -/

namespace Sys2Proof.Machine

/-- STATUS holds a code the core writes: never 3 and never 7 to 15 (60_exceptions.md rules R181, R184). -/
def StatusLegal (s : State) : Prop := s.status ∈ coreStatusCodes

/-- The first bytes of a store are the words of the expansion of this raw key (10_state.md rule R33). -/
def HoldsExpansion (k : KeySize) (K : Vector Byte k.keyBytes) (ksb : ScheduleStore) : Prop :=
  ∀ i : Fin 240, i.val < k.scheduleBytes → ksb[i] = wordByte (wordAt (keyExpansion k K) (i.val / 4)) (i.val % 4)

/-- While NK is not 0, the schedule is the expansion of some raw key of NK's size (rule R33). -/
def ScheduleSound (s : State) : Prop := ∀ k, s.nk = some k → ∃ K, HoldsExpansion k K s.ksb

/-- Two states that no command can tell apart: they agree on everything but the bytes of KSB that no command can
reach, all of them while NK is 0 and those above the schedule otherwise (rule R23, 93_implementation_defined.md U1,
U3). -/
structure SameToHost (s t : State) : Prop where
  blk : s.blk = t.blk
  key : s.key = t.key
  keyLen : s.keyLen = t.keyLen
  nk : s.nk = t.nk
  res : s.res = t.res
  status : s.status = t.status
  host : s.host = t.host
  schedule : ∀ k, s.nk = some k → ∀ i : Fin 240, i.val < k.scheduleBytes → s.ksb[i] = t.ksb[i]

/-! The words and the rows of the opcode table, written from the spec's encoding and not from the decoder. -/

/-- `pattern | a << 16 | b << 8`: the command word of the Encoding lines of the command rules. -/
def spelledWord (pattern : CommandWord) (a b : Byte) : CommandWord :=
  pattern ||| (a.setWidth 32 <<< 16) ||| (b.setWidth 32 <<< 8)

/-- A row of the opcode map (30_encoding.md rule R74). -/
structure TableRow where
  op : Opcode
  pattern : CommandWord
  mask : CommandWord
deriving DecidableEq, Repr

/-- The opcode map with the `match` and `mask` columns it prints (rule R74). -/
def specTable : List TableRow :=
  [⟨.gfadd, 0x01000000, 0xFF0000FF⟩, ⟨.gfsub, 0x02000000, 0xFF0000FF⟩, ⟨.gfmul, 0x03000000, 0xFF0000FF⟩,
    ⟨.sub, 0x08000000, 0xFF00FFFF⟩, ⟨.isub, 0x09000000, 0xFF00FFFF⟩] ++
  [⟨.keywr, 0x10000000, 0xFF0000FF⟩, ⟨.setklen, 0x11000000, 0xFF00FFFF⟩, ⟨.kexp, 0x12000000, 0xFFFF0000⟩,
    ⟨.ksrd, 0x13000000, 0xFF00FFFF⟩, ⟨.blkwr, 0x20000000, 0xFF0000FF⟩, ⟨.blkrd, 0x21000000, 0xFF00FFFF⟩] ++
  [⟨.subbytes, 0x30000000, 0xFFFFFFFF⟩, ⟨.invsubbytes, 0x31000000, 0xFFFFFFFF⟩,
    ⟨.shiftrows, 0x32000000, 0xFFFFFFFF⟩, ⟨.invshiftrows, 0x33000000, 0xFFFFFFFF⟩,
    ⟨.mixcolumns, 0x34000000, 0xFFFFFFFF⟩, ⟨.invmixcolumns, 0x35000000, 0xFFFFFFFF⟩,
    ⟨.addroundkey, 0x36000000, 0xFF00FFFF⟩] ++
  [⟨.encblk, 0x40000000, 0xFFFFFFFF⟩, ⟨.decblk, 0x41000000, 0xFFFFFFFF⟩]

/-- A word matches a row exactly when `cw & mask = match` (rule R72). -/
def TableRow.matches (r : TableRow) (cw : CommandWord) : Prop := cw &&& r.mask = r.pattern

/-! The cipher as a sequence of elementary commands (45_cipher_engine.md rules R160, R161). -/

/-- Commands executed one after the other. -/
def execAll : List Instr → State → Result
  | [], s => .next s
  | i :: rest, s => andThen (exec i s) (execAll rest)

/-- `ADDROUNDKEY r`. -/
def addRoundKeyInstr (r : Nat) : Instr := .addroundkey (BitVec.ofNat 8 r)

/-- The forward cipher, command by command: rounds 1 to Nr − 1 ascending, the last round without MIXCOLUMNS. -/
def encryptionCommands (nr : Nat) : List Instr :=
  [addRoundKeyInstr 0] ++
    (List.range' 1 (nr - 1)).flatMap (fun r => [.subbytes, .shiftrows, .mixcolumns, addRoundKeyInstr r]) ++
    [.subbytes, .shiftrows, addRoundKeyInstr nr]

/-- The inverse cipher, command by command: rounds Nr − 1 to 1 descending, ADDROUNDKEY before INVMIXCOLUMNS. -/
def decryptionCommands (nr : Nat) : List Instr :=
  [addRoundKeyInstr nr] ++
    (List.range' 1 (nr - 1)).reverse.flatMap
      (fun r => [.invshiftrows, .invsubbytes, addRoundKeyInstr r, .invmixcolumns]) ++
    [.invshiftrows, .invsubbytes, addRoundKeyInstr 0]

/-! The field as polynomials over GF(2) (41_gf_arithmetic.md rule R100). -/

/-- Bit `i` of the byte is the coefficient of `x^i` of the polynomial. -/
def Represents (v : Byte) (p : Polynomial (ZMod 2)) : Prop :=
  ∀ i, p.coeff i = if v.getLsbD i then 1 else 0

end Sys2Proof.Machine
end

