-- ==== Sys2Proof/Certificates/Slice0/Obligations.lean ====
section
/-! DEFINITION. The statements for the provers. Each docstring names the rules of spec/ it formalises. -/

open Sys2Proof Sys2Proof.Machine

/-! ## Encoding -/

/-- Every instruction is read back from its word: no bit of any operand is dropped (rules R70, R73, R77). -/
def Obligations.DecodeOfEncodeIsInstruction : Prop :=
  ∀ i : Instr, decode (encode i) = .ok i

/-- Every word that decodes is the word of the instruction it decodes to: each command has one spelling (rules R72,
R75: no bits are ignored). -/
def Obligations.DecodedWordIsItsOwnEncoding : Prop :=
  ∀ (cw : CommandWord) (i : Instr), decode cw = .ok i → encode i = cw

/-- A word decodes to a command of a row exactly when `cw & mask = match` for that row of rule R74, and no word matches
two rows (rule R72). -/
def Obligations.DecodeAcceptsExactlyTheTableRows : Prop :=
  (∀ r ∈ specTable, ∀ cw : CommandWord, (∃ i, decode cw = .ok i ∧ instrOpcode i = r.op) ↔ r.matches cw) ∧
    (∀ cw i, decode cw = .ok i → ∃ r ∈ specTable, r.op = instrOpcode i) ∧
    ∀ r ∈ specTable, ∀ q ∈ specTable, ∀ cw : CommandWord, r.matches cw → q.matches cw → r = q

/-- Words of the spec's encoding table (95_test_vectors.md section 2.1), one of each family. -/
def Obligations.SampleWordsDecodeToTheirCommands : Prop :=
  decode 0x03578300 = .ok (.gfmul 0x57 0x83) ∧ decode 0x08530000 = .ok (.sub 0x53) ∧
    decode 0x101FFF00 = .ok (.keywr 31 0xFF) ∧ decode 0x12000100 = .ok (.kexp 256) ∧
    decode 0x21040000 = .ok (.blkrd 4) ∧ decode 0x34000000 = .ok .mixcolumns ∧
    decode 0x360A0000 = .ok (.addroundkey 10) ∧ decode 0x40000000 = .ok .encblk

/-- The assembler encodes a line of formats AB, A, N and I as rule R77 writes the word, and rejects an operand that
does not fit its field. -/
def Obligations.AssemblerEncodesAndRejectsByRule : Prop :=
  (∀ op a b, opcodeFormat op = .ab → a ≤ 255 → b ≤ 255 →
      assembleLine (.command op [a, b]) =
        some [((opcodeByte op).setWidth 32 <<< 24) ||| (BitVec.ofNat 32 a <<< 16) ||| (BitVec.ofNat 32 b <<< 8)]) ∧
    (∀ op a, opcodeFormat op = .a → a ≤ 255 →
      assembleLine (.command op [a]) = some [((opcodeByte op).setWidth 32 <<< 24) ||| (BitVec.ofNat 32 a <<< 16)]) ∧
    (∀ op, opcodeFormat op = .n → assembleLine (.command op []) = some [(opcodeByte op).setWidth 32 <<< 24]) ∧
    (∀ op imm16, opcodeFormat op = .i → imm16 ≤ 65535 →
      assembleLine (.command op [imm16]) = some [((opcodeByte op).setWidth 32 <<< 24) ||| BitVec.ofNat 32 imm16]) ∧
    (∀ op a b, opcodeFormat op = .ab → 255 < a ∨ 255 < b → assembleLine (.command op [a, b]) = none) ∧
    (∀ op a, opcodeFormat op = .a → 255 < a → assembleLine (.command op [a]) = none) ∧
    ∀ op imm16, opcodeFormat op = .i → 65535 < imm16 → assembleLine (.command op [imm16]) = none

/-- The three pseudo-instructions expand as rule R78 says, indices ascending, and a string of a wrong length is
rejected. -/
def Obligations.PseudoInstructionsExpandInOrder : Prop :=
  (∀ h : List Byte, h.length ≤ 32 → ∃ cws, assembleLine (.ldkey h) = some cws ∧ cws.length = h.length + 1 ∧
      (∀ (i : Nat) (hi : i < h.length), cws[i]? = some (spelledWord 0x10000000 (BitVec.ofNat 8 i) h[i])) ∧
      cws[h.length]? = some (spelledWord 0x11000000 (BitVec.ofNat 8 h.length) 0)) ∧
    (∀ h : List Byte, h.length = 16 → ∃ cws, assembleLine (.ldblk h) = some cws ∧ cws.length = 16 ∧
      ∀ (i : Nat) (hi : i < h.length), cws[i]? = some (spelledWord 0x20000000 (BitVec.ofNat 8 i) h[i])) ∧
    (∃ cws, assembleLine .rdblk = some cws ∧ cws.length = 16 ∧
      ∀ i < 16, cws[i]? = some (spelledWord 0x21000000 (BitVec.ofNat 8 i) 0)) ∧
    (∀ h : List Byte, 32 < h.length → assembleLine (.ldkey h) = none) ∧
    ∀ h : List Byte, h.length ≠ 16 → assembleLine (.ldblk h) = none

/-! ## The step -/

/-- When the word the host presents next decodes to `i`, the step is `exec i` on the state from which that word has been
taken (rules R2, R55, R58). -/
def Obligations.StepRunsTheDecodedCommand : Prop :=
  ∀ (s : State) (cw : CommandWord) (rest : List HostEvent) (i : Instr),
    s.host = .command cw :: rest → decode cw = .ok i → step s = exec i { s with host := rest }

/-- A word that matches no row of the opcode table is the illegal command: STATUS becomes 4 and nothing else changes
(rules R75, R185). -/
def Obligations.IllegalWordChangesOnlyStatus : Prop :=
  ∀ (s : State) (cw : CommandWord) (rest : List HostEvent),
    s.host = .command cw :: rest → (∀ r ∈ specTable, ¬ r.matches cw) →
      step s = .next { s with status := 4, host := rest }

/-- The reset event leaves STATUS, NK and KEYLEN at 0 and the data at that event's RESET_DATA, whatever it is (rules
R34, R200). -/
def Obligations.ResetEventLeavesTheResetState : Prop :=
  ∀ (s : State) (d : ResetData) (rest : List HostEvent),
    s.host = .reset d :: rest →
      step s = .next ⟨d.blk, d.key, 0, d.ksb, none, d.res, 0, rest⟩ ∧
        ∀ t, step s = .next t →
          t.status = 0 ∧ t.nk = none ∧ t.keyLen = 0 ∧ t.res = d.res ∧ t.blk = d.blk ∧ t.key = d.key ∧ t.ksb = d.ksb ∧
            t.host = rest

/-- The state the model starts from has the three values rule R34 gives. Its data bytes are the model's choice (log
entry 1) and this says nothing of them. -/
def Obligations.StartStateHasTheGivenResetValues : Prop :=
  State.reset.status = 0 ∧ State.reset.nk = none ∧ State.reset.nkValue = 0 ∧ State.reset.keyLen = 0

/-- With nothing presented the core keeps all its state (rules R195, R203). -/
def Obligations.IdleCoreKeepsItsState : Prop :=
  ∀ s : State, s.host = [] → step s = .next s

/-- No state and no event of the host make a step stop (rules R75, R202). -/
def Obligations.EveryStepHasANextState : Prop :=
  ∀ s : State, ∃ t, step s = .next t

/-! ## Data movement -/

/-- KEYWR (rule R90). -/
def Obligations.KeywrWritesOneKeyByte : Prop :=
  (∀ idx val, decode (spelledWord 0x10000000 idx val) = .ok (.keywr idx val)) ∧
    (∀ (s : State) (idx val : Byte) (h : idx.toNat ≤ 31),
      exec (.keywr idx val) s = .next { s with key := s.key.set idx.toNat val, status := 0 }) ∧
    ∀ (s : State) (idx val : Byte), 31 < idx.toNat → exec (.keywr idx val) s = .next { s with status := 5 }

/-- SETKLEN: any number is accepted, and one that is no key length makes every KEXP fail (rule R91). -/
def Obligations.SetklenDeclaresTheKeyLength : Prop :=
  (∀ n, decode (spelledWord 0x11000000 n 0) = .ok (.setklen n)) ∧
    (∀ (s : State) (n : Byte), exec (.setklen n) s = .next { s with keyLen := n, status := 0 }) ∧
    ∀ (s : State) (n : Byte) (imm16 : BitVec 16), n.toNat ∉ [16, 24, 32] →
      ∃ t, execAll [.setklen n, .kexp imm16] s = .next t ∧ t.status ∈ [1, 2]

/-- BLKWR (rule R92). -/
def Obligations.BlkwrWritesOneBlockByte : Prop :=
  (∀ idx val, decode (spelledWord 0x20000000 idx val) = .ok (.blkwr idx val)) ∧
    (∀ (s : State) (idx val : Byte) (h : idx.toNat ≤ 15),
      exec (.blkwr idx val) s = .next { s with blk := s.blk.set idx.toNat val, status := 0 }) ∧
    ∀ (s : State) (idx val : Byte), 15 < idx.toNat → exec (.blkwr idx val) s = .next { s with status := 5 }

/-- BLKRD (rule R93). -/
def Obligations.BlkrdReadsOneBlockByte : Prop :=
  (∀ idx, decode (spelledWord 0x21000000 idx 0) = .ok (.blkrd idx)) ∧
    (∀ (s : State) (idx : Byte) (h : idx.toNat ≤ 15),
      exec (.blkrd idx) s = .next { s with res := s.blk[idx.toNat], status := 0 }) ∧
    ∀ (s : State) (idx : Byte), 15 < idx.toNat → exec (.blkrd idx) s = .next { s with status := 5 }

/-- KSRD: NoSchedule first, then the index limit 16·(NK + 7) − 1, then the read; the first 4·NK bytes after a KEXP are
those of the key (rule R94). -/
def Obligations.KsrdReadsOneScheduleByte : Prop :=
  (∀ idx, decode (spelledWord 0x13000000 idx 0) = .ok (.ksrd idx)) ∧
    (∀ (s : State) (idx : Byte), s.nk = none → exec (.ksrd idx) s = .next { s with status := 6 }) ∧
    (∀ (s : State) (idx : Byte) (k : KeySize), s.nk = some k → 16 * (k.nk + 7) - 1 < idx.toNat →
      exec (.ksrd idx) s = .next { s with status := 5 }) ∧
    (∀ (s : State) (idx : Byte) (k : KeySize) (i : Fin 240), s.nk = some k → idx.toNat = i.val →
      i.val ≤ 16 * (k.nk + 7) - 1 → exec (.ksrd idx) s = .next { s with res := s.ksb[i], status := 0 }) ∧
    ∀ (s : State) (idx : Byte) (imm16 : BitVec 16) (k : KeySize) (i : Fin 32), imm16.toNat = 32 * k.nk →
      s.keyLen.toNat = imm16.toNat / 8 → idx.toNat = i.val → i.val < 4 * k.nk →
        ∃ t, execAll [.kexp imm16, .ksrd idx] s = .next t ∧ t.res = s.key[i] ∧ t.status = 0

/-- A BLKRD gives the byte of the latest BLKWR to its index, and a BLKWR to another index does not disturb it (rule
R58). -/
def Obligations.BlkrdReturnsTheLatestWrite : Prop :=
  ∀ (s : State) (idx val other : Byte), idx.toNat ≤ 15 → other.toNat ≤ 15 →
    ∃ t u v w, exec (.blkwr idx val) s = .next t ∧ exec (.blkrd idx) t = .next u ∧ u.res = val ∧
      exec (.blkrd other) s = .next v ∧ exec (.blkrd other) t = .next w ∧ (other ≠ idx → w.res = v.res)

/-! ## GF(2^8) arithmetic -/

/-- GFADD (rule R104). -/
def Obligations.GfaddXorsItsOperands : Prop :=
  (∀ a b, decode (spelledWord 0x01000000 a b) = .ok (.gfadd a b)) ∧
    ∀ (s : State) (a b : Byte), exec (.gfadd a b) s = .next { s with res := a ^^^ b, status := 0 }

/-- GFSUB: the same result as GFADD for every operand pair (rule R105). -/
def Obligations.GfsubXorsItsOperands : Prop :=
  (∀ a b, decode (spelledWord 0x02000000 a b) = .ok (.gfsub a b)) ∧
    ∀ (s : State) (a b : Byte),
      exec (.gfsub a b) s = .next { s with res := a ^^^ b, status := 0 } ∧
        exec (.gfsub a b) s = exec (.gfadd a b) s ∧ exec (.gfsub a b) s = exec (.gfsub b a) s

/-- GFMUL (rule R106). -/
def Obligations.GfmulGivesTheFieldProduct : Prop :=
  (∀ a b, decode (spelledWord 0x03000000 a b) = .ok (.gfmul a b)) ∧
    (∀ (s : State) (a b : Byte), exec (.gfmul a b) s = .next { s with res := gmul a b, status := 0 }) ∧
    gmul 0x57 0x83 = 0xC1 ∧ gmul 0x80 0x02 = 0x1B ∧ gmul 0xFF 0xFF = 0x13 ∧
    (∀ a, gmul a 0 = 0 ∧ gmul 0 a = 0 ∧ gmul a 1 = a ∧ gmul 1 a = a) ∧
    ∀ (s : State) (a b : Byte), exec (.gfmul a b) s = exec (.gfmul b a) s

/-- The shift-and-reduce procedure computes the product of the two polynomials over GF(2) reduced modulo
`x^8 + x^4 + x^3 + x + 1` (rules R100, R102). -/
def Obligations.GmulIsTheReducedPolynomialProduct : Prop :=
  ∀ (a b : Byte) (p q r : Polynomial (ZMod 2)),
    Represents a p → Represents b q → Represents (gmul a b) r →
      r = (p * q) %ₘ (Polynomial.X ^ 8 + Polynomial.X ^ 4 + Polynomial.X ^ 3 + Polynomial.X + 1)

/-- The laws of the arithmetic, clauses (b), (c), (d) and (f) of rule R107. -/
def Obligations.GmulObeysTheFieldLaws : Prop :=
  (∀ a b, gadd a b = gadd b a) ∧ (∀ a b c, gadd (gadd a b) c = gadd a (gadd b c)) ∧
    (∀ a, gadd a 0 = a ∧ gadd a a = 0) ∧ (∀ a b, gmul a b = gmul b a) ∧
    (∀ a b c, gmul (gmul a b) c = gmul a (gmul b c)) ∧
    (∀ a b c, gmul a (gadd b c) = gadd (gmul a b) (gmul a c)) ∧
    (∀ a, gmul a 0 = 0 ∧ gmul 0 a = 0 ∧ gmul a 1 = a ∧ gmul 1 a = a) ∧
    ∀ a, a ≠ 0 → ∃ b, gmul a b = 1 ∧ ∀ c, gmul a c = 1 → c = b

/-- Doubling shifts and reduces (rule R103), and the multiples the round transforms use are made of doublings (rule
R107 clause (e)). -/
def Obligations.XtimeShiftsAndReduces : Prop :=
  ∀ a : Byte,
    xtime a = (if a.getLsbD 7 then (a <<< 1) ^^^ 0x1B else a <<< 1) ∧ gmul a 2 = xtime a ∧
      gmul a 3 = xtime a ^^^ a ∧ gmul a 9 = xtime (xtime (xtime a)) ^^^ a ∧
      gmul a 11 = xtime (xtime (xtime a)) ^^^ xtime a ^^^ a ∧
      gmul a 13 = xtime (xtime (xtime a)) ^^^ xtime (xtime a) ^^^ a ∧
      gmul a 14 = xtime (xtime (xtime a)) ^^^ xtime (xtime a) ^^^ xtime a

/-! ## The S-box unit -/

/-- SUB and ISUB (42_sbox.md rules R114, R115), with the spec's corner cases. Two parts are no rule of the spec: that
SBOX keeps and complements no index is an inference R114 marks as its own ("derived: by evaluation of rule R112"), and
the table values are the spec's general knowledge, PRESUMED (log entry 7). -/
def Obligations.SubAndIsubLookUpTheTables : Prop :=
  (∀ a, decode (spelledWord 0x08000000 a 0) = .ok (.sub a)) ∧
    (∀ a, decode (spelledWord 0x09000000 a 0) = .ok (.isub a)) ∧
    (∀ (s : State) (a : Byte), exec (.sub a) s = .next { s with res := sbox a, status := 0 }) ∧
    (∀ (s : State) (a : Byte), exec (.isub a) s = .next { s with res := invSbox a, status := 0 }) ∧
    sbox 0x00 = 0x63 ∧ sbox 0x53 = 0xED ∧ sbox 0xFF = 0x16 ∧ invSbox 0x63 = 0x00 ∧ invSbox 0x00 = 0x52 ∧
    invSbox 0x16 = 0xFF ∧ invSbox 0xED = 0x53 ∧ (∀ x, sbox x = 0x00 ↔ x = 0x52) ∧
    (∀ x, sbox x ≠ x ∧ sbox x ≠ x ^^^ 0xFF) ∧
    ∀ (s : State) (x : Byte),
      (∃ t u, exec (.sub x) s = .next t ∧ exec (.isub t.res) t = .next u ∧ u.res = x) ∧
        ∃ t u, exec (.isub x) s = .next t ∧ exec (.sub t.res) t = .next u ∧ u.res = x

/-- SBOX is the affine map of the multiplicative inverse, 0 counting as the inverse of 0 (rule R111). -/
def Obligations.SboxIsTheAffineMapOfTheInverse : Prop :=
  ∀ x y : Byte, (x = 0 ∧ y = 0) ∨ gmul x y = 0x01 →
    sbox x = y ^^^ (y <<< 1 ||| y >>> 7) ^^^ (y <<< 2 ||| y >>> 6) ^^^ (y <<< 3 ||| y >>> 5) ^^^
      (y <<< 4 ||| y >>> 4) ^^^ 0x63

/-! ## The key scheduler -/

/-- The sizes of the three key sizes (rules R5, R120). -/
def Obligations.KeySizesMatchTheTable : Prop :=
  [KeySize.k128, KeySize.k192, KeySize.k256].map
      (fun k => (k.bits, k.nk, k.keyBytes, k.nr.val, k.words, k.scheduleBytes)) =
    [(128, 4, 16, 10, 44, 176), (192, 6, 24, 12, 52, 208), (256, 8, 32, 14, 60, 240)] ∧
  ∀ k : KeySize, k.nr.val = k.nk + 6

/-- RotWord, SubWord and XorWord (rule R121). -/
def Obligations.WordFunctionsActByteByByte : Prop :=
  ∀ b0 b1 b2 b3 c0 c1 c2 c3 : Byte,
    rotWord ⟨b0, b1, b2, b3⟩ = ⟨b1, b2, b3, b0⟩ ∧
      subWord ⟨b0, b1, b2, b3⟩ = ⟨sbox b0, sbox b1, sbox b2, sbox b3⟩ ∧
      xorWord ⟨b0, b1, b2, b3⟩ ⟨c0, c1, c2, c3⟩ = ⟨b0 ^^^ c0, b1 ^^^ c1, b2 ^^^ c2, b3 ^^^ c3⟩

/-- The round constants: the recurrence, the word, and the printed values (rule R122). -/
def Obligations.RoundConstantsDouble : Prop :=
  rc 1 = 0x01 ∧ (∀ j, 2 ≤ j → rc j = xtime (rc (j - 1))) ∧ (∀ j, 1 ≤ j → rcon j = ⟨rc j, 0x00, 0x00, 0x00⟩) ∧
    (List.range' 1 14).map rc =
      [0x01, 0x02, 0x04, 0x08, 0x10, 0x20, 0x40, 0x80, 0x1b, 0x36, 0x6c, 0xd8, 0xab, 0x4d]

/-- The expansion has 4·(Nr + 1) words; the first Nk are the key; every later word is made of the preceding word and
the word Nk before it, with the two special branches (rule R123). -/
def Obligations.KeyExpansionFollowsItsRecurrence : Prop :=
  ∀ (k : KeySize) (K : Vector Byte k.keyBytes),
    (keyExpansion k K).length = 4 * (k.nk + 7) ∧
      (∀ i : Fin k.nk, wordAt (keyExpansion k K) i.val = keyWord k K i) ∧
      ∀ i, k.nk ≤ i → i < 4 * (k.nk + 7) →
        wordAt (keyExpansion k K) i =
          xorWord
            (if i % k.nk = 0 then
              xorWord (subWord (rotWord (wordAt (keyExpansion k K) (i - 1)))) (rcon (i / k.nk))
            else if 6 < k.nk ∧ i % k.nk = 4 then subWord (wordAt (keyExpansion k K) (i - 1))
            else wordAt (keyExpansion k K) (i - 1))
            (wordAt (keyExpansion k K) (i - k.nk))

/-- KEXP: the two errors in their order, and the schedule (rules R126, R182, R183). The words above the schedule keep
what they held. -/
def Obligations.KexpBuildsTheScheduleOrChangesOnlyStatus : Prop :=
  (∀ imm16 : BitVec 16, decode (0x12000000 ||| imm16.setWidth 32) = .ok (.kexp imm16)) ∧
    (∀ (s : State) (imm16 : BitVec 16), imm16.toNat ≠ 128 → imm16.toNat ≠ 192 → imm16.toNat ≠ 256 →
      exec (.kexp imm16) s = .next { s with status := 1 }) ∧
    (∀ (s : State) (imm16 : BitVec 16), imm16.toNat = 128 ∨ imm16.toNat = 192 ∨ imm16.toNat = 256 →
      s.keyLen.toNat ≠ imm16.toNat / 8 → exec (.kexp imm16) s = .next { s with status := 2 }) ∧
    ∀ (s : State) (imm16 : BitVec 16) (k : KeySize), imm16.toNat = 32 * k.nk → s.keyLen.toNat = imm16.toNat / 8 →
      ∃ t, exec (.kexp imm16) s = .next t ∧ t = { s with ksb := t.ksb, nk := some k, status := 0 } ∧
        (∀ i : Fin 240, i.val < 16 * (k.nk + 7) →
          t.ksb[i] = wordByte (wordAt (keyExpansion k (rawKey k s.key)) (i.val / 4)) (i.val % 4)) ∧
        ∀ i : Fin 240, 16 * (k.nk + 7) ≤ i.val → t.ksb[i] = s.ksb[i]

/-- The schedule is a function of the first `4·Nk` key bytes alone: two cores that agree on them and on KEYLEN get the
same schedule, whatever else they hold (rules R22, R125). -/
def Obligations.ScheduleDependsOnTheRawKeyAlone : Prop :=
  ∀ (s t : State) (imm16 : BitVec 16) (k : KeySize), imm16.toNat = k.bits → s.keyLen.toNat = k.keyBytes →
    t.keyLen.toNat = k.keyBytes → (∀ i : Fin 32, i.val < k.keyBytes → s.key[i] = t.key[i]) →
      ∃ u v, exec (.kexp imm16) s = .next u ∧ exec (.kexp imm16) t = .next v ∧ u.nk = v.nk ∧
        ∀ i : Fin 240, i.val < k.scheduleBytes → u.ksb[i] = v.ksb[i]

/-- KEXP issued twice with nothing between gives what it gave once (rules R125, R126 corner case (f)). -/
def Obligations.KexpTwiceIsKexpOnce : Prop :=
  ∀ (s : State) (imm16 : BitVec 16), ∃ t, exec (.kexp imm16) s = .next t ∧ exec (.kexp imm16) t = .next t

/-! ## The round transforms -/

/-- SUBBYTES, which changes every byte, and INVSUBBYTES; one after the other restores the block (rules R140, R141,
R147, R148). -/
def Obligations.SubBytesCommandsMapEveryByte : Prop :=
  decode 0x30000000 = .ok .subbytes ∧ decode 0x31000000 = .ok .invsubbytes ∧
    (∀ s : State, ∃ t, exec .subbytes s = .next t ∧ t = { s with blk := t.blk, status := 0 } ∧
      ∀ k : Fin 16, t.blk[k] = sbox s.blk[k] ∧ t.blk[k] ≠ s.blk[k]) ∧
    (∀ s : State, ∃ t, exec .invsubbytes s = .next t ∧ t = { s with blk := t.blk, status := 0 } ∧
      ∀ k : Fin 16, t.blk[k] = invSbox s.blk[k]) ∧
    ∀ s : State, execAll [.subbytes, .invsubbytes] s = .next { s with status := 0 } ∧
      execAll [.invsubbytes, .subbytes] s = .next { s with status := 0 }

/-- SHIFTROWS and INVSHIFTROWS, by row and column and by the printed permutations; one after the other restores the
block, and so do four SHIFTROWS (rules R142, R143, R149, R150). -/
def Obligations.ShiftRowsCommandsPermuteTheBlock : Prop :=
  decode 0x32000000 = .ok .shiftrows ∧ decode 0x33000000 = .ok .invshiftrows ∧
    (∀ s : State, ∃ t, exec .shiftrows s = .next t ∧ t = { s with blk := t.blk, status := 0 } ∧
      (∀ r c : Fin 4, t.blk[4 * c.val + r.val] = s.blk[4 * ((c.val + r.val) % 4) + r.val]) ∧
      ∀ k < 16, t.blk[k]? = s.blk[[0, 5, 10, 15, 4, 9, 14, 3, 8, 13, 2, 7, 12, 1, 6, 11].getD k 16]?) ∧
    (∀ s : State, ∃ t, exec .invshiftrows s = .next t ∧ t = { s with blk := t.blk, status := 0 } ∧
      (∀ r c : Fin 4, t.blk[4 * c.val + r.val] = s.blk[4 * ((c.val + 4 - r.val) % 4) + r.val]) ∧
      ∀ k < 16, t.blk[k]? = s.blk[[0, 13, 10, 7, 4, 1, 14, 11, 8, 5, 2, 15, 12, 9, 6, 3].getD k 16]?) ∧
    ∀ s : State, execAll [.shiftrows, .invshiftrows] s = .next { s with status := 0 } ∧
      execAll [.invshiftrows, .shiftrows] s = .next { s with status := 0 } ∧
      execAll [.shiftrows, .shiftrows, .shiftrows] s = exec .invshiftrows s ∧
      execAll [.shiftrows, .shiftrows, .shiftrows, .shiftrows] s = .next { s with status := 0 }

/-- MIXCOLUMNS, written out for each column from its four old bytes (rules R144, R151). -/
def Obligations.MixcolumnsMultipliesEveryColumn : Prop :=
  decode 0x34000000 = .ok .mixcolumns ∧
    ∀ s : State, ∃ t, exec .mixcolumns s = .next t ∧ t = { s with blk := t.blk, status := 0 } ∧
      ∀ c : Fin 4,
        let a0 := s.blk[4 * c.val]
        let a1 := s.blk[4 * c.val + 1]
        let a2 := s.blk[4 * c.val + 2]
        let a3 := s.blk[4 * c.val + 3]
        t.blk[4 * c.val] = gmul 2 a0 ^^^ gmul 3 a1 ^^^ a2 ^^^ a3 ∧
          t.blk[4 * c.val + 1] = a0 ^^^ gmul 2 a1 ^^^ gmul 3 a2 ^^^ a3 ∧
          t.blk[4 * c.val + 2] = a0 ^^^ a1 ^^^ gmul 2 a2 ^^^ gmul 3 a3 ∧
          t.blk[4 * c.val + 3] = gmul 3 a0 ^^^ a1 ^^^ a2 ^^^ gmul 2 a3

/-- INVMIXCOLUMNS, written out for each column from its four old bytes; with MIXCOLUMNS, in either order, it restores
the block (rules R145, R152). -/
def Obligations.InvmixcolumnsMultipliesEveryColumn : Prop :=
  decode 0x35000000 = .ok .invmixcolumns ∧
    (∀ s : State, execAll [.mixcolumns, .invmixcolumns] s = .next { s with status := 0 } ∧
      execAll [.invmixcolumns, .mixcolumns] s = .next { s with status := 0 }) ∧
    ∀ s : State, ∃ t, exec .invmixcolumns s = .next t ∧ t = { s with blk := t.blk, status := 0 } ∧
      ∀ c : Fin 4,
        let a0 := s.blk[4 * c.val]
        let a1 := s.blk[4 * c.val + 1]
        let a2 := s.blk[4 * c.val + 2]
        let a3 := s.blk[4 * c.val + 3]
        t.blk[4 * c.val] = gmul 14 a0 ^^^ gmul 11 a1 ^^^ gmul 13 a2 ^^^ gmul 9 a3 ∧
          t.blk[4 * c.val + 1] = gmul 9 a0 ^^^ gmul 14 a1 ^^^ gmul 11 a2 ^^^ gmul 13 a3 ∧
          t.blk[4 * c.val + 2] = gmul 13 a0 ^^^ gmul 9 a1 ^^^ gmul 14 a2 ^^^ gmul 11 a3 ∧
          t.blk[4 * c.val + 3] = gmul 11 a0 ^^^ gmul 13 a1 ^^^ gmul 9 a2 ^^^ gmul 14 a3

/-- ADDROUNDKEY: NoSchedule first, then the round number, then the XOR; issued twice it restores the block (rules R146,
R153). -/
def Obligations.AddroundkeyXorsTheRoundKey : Prop :=
  (∀ n, decode (spelledWord 0x36000000 n 0) = .ok (.addroundkey n)) ∧
    (∀ (s : State) (n : Byte), s.nk = none → exec (.addroundkey n) s = .next { s with status := 6 }) ∧
    (∀ (s : State) (n : Byte) (k : KeySize), s.nk = some k → k.nk + 6 < n.toNat →
      exec (.addroundkey n) s = .next { s with status := 5 }) ∧
    ∀ (s : State) (n : Byte) (k : KeySize) (r : Fin 15), s.nk = some k → n.toNat = r.val → r.val ≤ k.nk + 6 →
      (∃ t, exec (.addroundkey n) s = .next t ∧ t = { s with blk := t.blk, status := 0 } ∧
        ∀ j : Fin 16, t.blk[j] = s.blk[j] ^^^ s.ksb[16 * r.val + j.val]) ∧
        execAll [.addroundkey n, .addroundkey n] s = .next { s with status := 0 }

/-- The inverse pairs in both orders, the two commutations, and one that fails: MixColumns and AddRoundKey do not
commute (rule R154). -/
def Obligations.RoundTransformsInvertEachOther : Prop :=
  (∀ S : Block, invSubBytes (subBytes S) = S ∧ subBytes (invSubBytes S) = S) ∧
    (∀ S : Block, invShiftRows (shiftRows S) = S ∧ shiftRows (invShiftRows S) = S) ∧
    (∀ S : Block, invMixColumns (mixColumns S) = S ∧ mixColumns (invMixColumns S) = S) ∧
    (∀ (ks : ScheduleStore) (n : Fin 15) (S : Block), addRoundKey ks n (addRoundKey ks n S) = S) ∧
    (∀ S : Block, shiftRows (subBytes S) = subBytes (shiftRows S)) ∧
    (∀ S : Block, invShiftRows (invSubBytes S) = invSubBytes (invShiftRows S)) ∧
    ∃ (ks : ScheduleStore) (n : Fin 15) (S : Block), mixColumns (addRoundKey ks n S) ≠ addRoundKey ks n (mixColumns S)

/-! ## The cipher engine -/

/-- ENCBLK (rule R162): NoSchedule, or the forward cipher applied to BLK. -/
def Obligations.EncblkEncryptsTheBlock : Prop :=
  decode 0x40000000 = .ok .encblk ∧
    (∀ s : State, s.nk = none → exec .encblk s = .next { s with status := 6 }) ∧
    ∀ (s : State) (k : KeySize), s.nk = some k →
      exec .encblk s = .next { s with blk := cipher k s.ksb s.blk, status := 0 }

/-- DECBLK (rule R163): NoSchedule, or the inverse cipher applied to BLK. -/
def Obligations.DecblkDecryptsTheBlock : Prop :=
  decode 0x41000000 = .ok .decblk ∧
    (∀ s : State, s.nk = none → exec .decblk s = .next { s with status := 6 }) ∧
    ∀ (s : State) (k : KeySize), s.nk = some k →
      exec .decblk s = .next { s with blk := invCipher k s.ksb s.blk, status := 0 }

/-- ENCBLK does what the elementary commands of rule R160 do, issued one by one in its order. -/
def Obligations.EncblkIsTheElementaryCommandsInOrder : Prop :=
  ∀ (s : State) (k : KeySize), s.nk = some k →
    ∃ t, exec .encblk s = .next t ∧ execAll (encryptionCommands (k.nk + 6)) s = .next t

/-- DECBLK does what the elementary commands of rule R161 do, issued one by one in its order. -/
def Obligations.DecblkIsTheElementaryCommandsInOrder : Prop :=
  ∀ (s : State) (k : KeySize), s.nk = some k →
    ∃ t, exec .decblk s = .next t ∧ execAll (decryptionCommands (k.nk + 6)) s = .next t

/-- For every schedule and every block, ENCBLK then DECBLK restores BLK, and so does DECBLK then ENCBLK; nothing else
but STATUS has changed (rules R164, R165). -/
def Obligations.EncryptionAndDecryptionInvertEachOther : Prop :=
  (∀ (k : KeySize) (ks : ScheduleStore) (S : Block), invCipher k ks (cipher k ks S) = S ∧ cipher k ks (invCipher k ks S) = S) ∧
    ∀ (s : State) (k : KeySize), s.nk = some k →
      (∃ t, exec .encblk s = .next t ∧ exec .decblk t = .next { s with status := 0 }) ∧
        ∃ t, exec .decblk s = .next t ∧ exec .encblk t = .next { s with status := 0 }

/-! ## The whole machine -/

/-- A command that ends in an error changes STATUS and nothing else (rule R180). -/
def Obligations.ErrorChangesOnlyStatus : Prop :=
  ∀ (i : Instr) (s t : State), exec i s = .next t → t.status ≠ 0 → t = { s with status := t.status }

/-- What a command does never depends on STATUS: an earlier error neither blocks nor alters it (rules R25, R28, R180).
-/
def Obligations.StatusNeverAltersACommand : Prop :=
  ∀ (i : Instr) (s : State) (v : StatusCode), exec i { s with status := v } = exec i s

/-- The w columns of the access matrix: each item is changed only by the commands the matrix marks (rules R20, R35). -/
def Obligations.EachItemIsWrittenOnlyByItsCommands : Prop :=
  ∀ (i : Instr) (s t : State), exec i s = .next t →
    (instrOpcode i ∉ [Opcode.blkwr, .subbytes, .invsubbytes, .shiftrows, .invshiftrows, .mixcolumns, .invmixcolumns,
        .addroundkey, .encblk, .decblk] → t.blk = s.blk) ∧
      (instrOpcode i ≠ .keywr → t.key = s.key) ∧ (instrOpcode i ≠ .setklen → t.keyLen = s.keyLen) ∧
      (instrOpcode i ≠ .kexp → t.ksb = s.ksb ∧ t.nk = s.nk) ∧
      (instrOpcode i ∉ [Opcode.gfadd, .gfsub, .gfmul, .sub, .isub, .blkrd, .ksrd] → t.res = s.res) ∧ t.host = s.host

/-- The r columns of the access matrix: changing an item a command does not read changes nothing but that item in what
the command leaves (rule R35). -/
def Obligations.EachItemIsReadOnlyByItsCommands : Prop :=
  (∀ (i : Instr) (s : State) (v : Block),
      instrOpcode i ∉ [Opcode.blkrd, .subbytes, .invsubbytes, .shiftrows, .invshiftrows, .mixcolumns, .invmixcolumns,
        .addroundkey, .encblk, .decblk] →
      ∃ t w, exec i s = .next t ∧ exec i { s with blk := v } = .next { t with blk := w }) ∧
    (∀ (i : Instr) (s : State) (v : KeyBuffer), instrOpcode i ≠ .kexp →
      ∃ t w, exec i s = .next t ∧ exec i { s with key := v } = .next { t with key := w }) ∧
    (∀ (i : Instr) (s : State) (v : Byte), instrOpcode i ≠ .kexp →
      ∃ t w, exec i s = .next t ∧ exec i { s with keyLen := v } = .next { t with keyLen := w }) ∧
    (∀ (i : Instr) (s : State) (v : ScheduleStore), instrOpcode i ∉ [Opcode.ksrd, .addroundkey, .encblk, .decblk] →
      ∃ t w, exec i s = .next t ∧ exec i { s with ksb := v } = .next { t with ksb := w }) ∧
    (∀ (i : Instr) (s : State) (v : Option KeySize), instrOpcode i ∉ [Opcode.ksrd, .addroundkey, .encblk, .decblk] →
      ∃ t w, exec i s = .next t ∧ exec i { s with nk := v } = .next { t with nk := w }) ∧
    ∀ (i : Instr) (s : State) (v : Byte),
      ∃ t w, exec i s = .next t ∧ exec i { s with res := v } = .next { t with res := w }

/-- The order of the checks (rule R188): decoding first, NoSchedule before the operand, the key size before the key
length. -/
def Obligations.ErrorsAreReportedInTheirOrder : Prop :=
  (∀ (s : State) (cw : CommandWord), (∀ i, decode cw ≠ .ok i) → runCommand cw s = .next { s with status := 4 }) ∧
    (∀ (s : State) (n : Byte), s.nk = none →
      exec (.ksrd n) s = .next { s with status := 6 } ∧ exec (.addroundkey n) s = .next { s with status := 6 } ∧
        exec .encblk s = .next { s with status := 6 } ∧ exec .decblk s = .next { s with status := 6 }) ∧
    (∀ (s : State) (n : Byte) (k : KeySize), s.nk = some k →
      (16 * (k.nk + 7) - 1 < n.toNat → exec (.ksrd n) s = .next { s with status := 5 }) ∧
        (k.nk + 6 < n.toNat → exec (.addroundkey n) s = .next { s with status := 5 })) ∧
    (∀ (s : State) (imm16 : BitVec 16), imm16.toNat ∉ [128, 192, 256] →
      exec (.kexp imm16) s = .next { s with status := 1 }) ∧
    ∀ (s : State) (imm16 : BitVec 16), imm16.toNat ∈ [128, 192, 256] → s.keyLen.toNat ≠ imm16.toNat / 8 →
      exec (.kexp imm16) s = .next { s with status := 2 }

/-- Once NK is not 0 it stays so until reset (rule R27). -/
def Obligations.NkStaysNonzeroUntilReset : Prop :=
  ∀ s t : State, s.nk ≠ none → (∀ d rest, s.host ≠ .reset d :: rest) → step s = .next t → t.nk ≠ none

/-- STATUS never holds 3 nor 7 to 15 (rules R181, R184): every step keeps it a code the core writes. -/
def Obligations.EveryStepKeepsStatusLegal : Prop :=
  ∀ s t : State, StatusLegal s → step s = .next t → StatusLegal t

/-- While NK is not 0 the schedule is the expansion of a raw key of NK's size (rule R33): every step keeps it so. -/
def Obligations.EveryStepKeepsTheScheduleSound : Prop :=
  ∀ s t : State, ScheduleSound s → step s = .next t → ScheduleSound t

/-- Both invariants hold in the state the model starts from, and after a reset event with any RESET_DATA. -/
def Obligations.InvariantsHoldAtReset : Prop :=
  (StatusLegal State.reset ∧ ScheduleSound State.reset) ∧
    ∀ (d : ResetData) (s : State), StatusLegal (applyReset d s) ∧ ScheduleSound (applyReset d s)

/-- The bytes of KSB that no command reads stay unobservable for ever: two states that differ in nothing else step to
two such states (rule R23). -/
def Obligations.UnreachableScheduleBytesStayHidden : Prop :=
  ∀ s t u : State, SameToHost s t → step s = .next u → ∃ v, step t = .next v ∧ SameToHost u v

/-! ## The host's procedures -/

/-- `buildKeySchedule` answers 1 for a bad size, else 2 for a bad length, else 0, and then KS holds the expansion of
exactly the bytes given (rule R171). -/
def Obligations.BuildKeyScheduleReportsAndBuilds : Prop :=
  ∀ (keyBytes : List Byte) (bits : Nat) (s : State),
    (bits ∉ [128, 192, 256] → ∃ t, buildKeySchedule keyBytes bits s = .next (t, 1) ∧ t.ksb = s.ksb ∧ t.nk = s.nk) ∧
      (bits ∈ [128, 192, 256] → keyBytes.length ≠ bits / 8 →
        ∃ t, buildKeySchedule keyBytes bits s = .next (t, 2) ∧ t.ksb = s.ksb ∧ t.nk = s.nk) ∧
      ∀ (k : KeySize) (K : Vector Byte k.keyBytes), bits = k.bits → keyBytes = K.toList →
        ∃ t, buildKeySchedule keyBytes bits s = .next (t, 0) ∧ t.nk = some k ∧ HoldsExpansion k K t.ksb ∧ t.blk = s.blk

/-- `encrypt` succeeds for every length, gives 16·⌈L/16⌉ bytes, and `decrypt` of them gives the input followed by zero
bytes up to the next multiple of 16 (rules R172, R173, R175). -/
def Obligations.DecryptReturnsThePaddedPlaintext : Prop :=
  ∀ (b : List Byte) (s : State) (k : KeySize), s.nk = some k →
    ∃ t u c, encryptBuffer b s = .next (t, .ok c) ∧ c.length = 16 * ((b.length + 15) / 16) ∧
      decryptBuffer c t = .next (u, .ok (b ++ List.replicate (c.length - b.length) 0))

/-- `decrypt` of a length that is no multiple of 16 answers InvalidCiphertextLength and the core is untouched (rules
R173, R184). -/
def Obligations.DecryptRefusesPartialBlocks : Prop :=
  ∀ (b : List Byte) (s : State), b.length % 16 ≠ 0 → decryptBuffer b s = .next (s, .error 3)

/-- Called before a schedule is built, `encrypt` and `decrypt` of a buffer that is not empty fail with NoSchedule (rule
R177). -/
def Obligations.HostCallsWithoutAScheduleFail : Prop :=
  ∀ (b : List Byte) (s : State), s.nk = none → b ≠ [] →
    (∃ t, encryptBuffer b s = .next (t, .error 6)) ∧ (b.length % 16 = 0 → ∃ t, decryptBuffer b s = .next (t, .error 6))

/-- What `encrypt` and `decrypt` make of a chunk depends on that chunk and the schedule alone: two cores that hold the
same schedule turn equal chunks, wherever they stand in their buffers, into equal bytes (rules R63, R174, R176). -/
def Obligations.ChunksAreProcessedIndependently : Prop :=
  ∀ (command : Instr) (b c : List Byte) (i j : Nat) (s t : State) (k : KeySize),
    command = .encblk ∨ command = .decblk → s.nk = some k → t.nk = some k →
      (∀ n : Fin 240, n.val < k.scheduleBytes → s.ksb[n] = t.ksb[n]) →
        (∀ m < 16, chunkByte b i m = chunkByte c j m) →
          ∃ u v out, processChunk command b i s = .next (u, .ok out) ∧ processChunk command c j t = .next (v, .ok out) ∧
            out.length = 16

/-- A run of any list of words ends, with RES and STATUS observed once after each word (rules R202, R203): the empty run
does nothing, and a run with one word more is the run before it, then that word issued in the state the run left, and the
observation of the state it leaves. So there are as many observations as words, the last of them shows the final state,
and the host's own list is as before. -/
def Obligations.RunsEndWithOneObservationPerCommand : Prop :=
  (∀ s : State, runWords [] s = .next (s, [])) ∧
    (∀ (cws : List CommandWord) (cw : CommandWord) (s : State),
      ∃ t obs u, runWords cws s = .next (t, obs) ∧ issueWord cw t = .next u ∧
        runWords (cws ++ [cw]) s = .next (u, obs ++ [observe u])) ∧
    ∀ (cws : List CommandWord) (s : State),
      ∃ t obs, runWords cws s = .next (t, obs) ∧ obs.length = cws.length ∧ t.host = s.host ∧
        (cws ≠ [] → obs.getLast? = some (observe t))
end

