-- ==== Sys2Proof/Laws/Blocks.lean ====
section
/-! SUPPORT. One byte of what each block function and each schedule function answers (44_round_transforms.md rules R140
to R146, 43_key_schedule.md rules R121 to R126). -/

namespace Sys2Proof.Machine

@[simp] theorem subBytes_get (S : Block) (k : Nat) (h : k < 16) : (subBytes S)[k] = sbox S[k] := by
  simp [subBytes]

@[simp] theorem invSubBytes_get (S : Block) (k : Nat) (h : k < 16) : (invSubBytes S)[k] = invSbox S[k] := by
  simp [invSubBytes]

theorem shiftRows_get (S : Block) (k : Nat) (h : k < 16) :
    (shiftRows S)[k] = element S (k % 4) (k / 4 + k % 4) := by
  simp [shiftRows]

theorem invShiftRows_get (S : Block) (k : Nat) (h : k < 16) :
    (invShiftRows S)[k] = element S (k % 4) (k / 4 + 4 - k % 4) := by
  simp [invShiftRows]

theorem mixWith_get (rows : Fin 4 → MixRow) (S : Block) (k : Nat) (h : k < 16) :
    (mixWith rows S)[k] = rowTimesColumn (rows ⟨k % 4, Nat.mod_lt _ (by decide)⟩) S (k / 4) := by
  simp [mixWith]

theorem roundKey_get (ks : ScheduleStore) (n : Fin 15) (k : Nat) (h : k < 16) :
    (roundKey ks n)[k] = ks[16 * n.val + k] := by
  simp [roundKey]

@[simp] theorem addRoundKey_get (ks : ScheduleStore) (n : Fin 15) (S : Block) (k : Nat) (h : k < 16) :
    (addRoundKey ks n S)[k] = S[k] ^^^ (roundKey ks n)[k] := by
  simp [addRoundKey]

/-- Element `s[r][c]` at a row and a column below 4 (00_scope.md rule R9). -/
theorem element_eq (S : Block) (r c : Nat) (hr : r < 4) (hc : c < 4) : element S r c = S[4 * c + r] := by
  simp [element, Nat.mod_eq_of_lt hr, Nat.mod_eq_of_lt hc]

theorem storeWords_get (k : KeySize) (w : List KeyWord) (old : ScheduleStore) (i : Nat) (h : i < 240) :
    (storeWords k w old)[i] = if i < k.scheduleBytes then wordByte (wordAt w (i / 4)) (i % 4) else old[i] := by
  simp [storeWords]

theorem rawKey_get (k : KeySize) (key : KeyBuffer) (i : Nat) (h : i < k.keyBytes) :
    (rawKey k key)[i] = key[i]'(Nat.lt_of_lt_of_le h (keyBytes_le k)) := by
  simp [rawKey]

/-! The expansion step keeps the words before it and adds one (rule R123). -/

theorem expandStep_length (nk : Nat) (w : List KeyWord) (i : Nat) :
    (expandStep nk w i).length = w.length + 1 := by
  simp [expandStep]

theorem wordAt_expandStep_old (nk : Nat) (w : List KeyWord) (i j : Nat) (h : j < w.length) :
    wordAt (expandStep nk w i) j = wordAt w j := by
  simp [wordAt, expandStep, List.getElem?_append_left h]

theorem wordAt_expandStep_new (nk : Nat) (w : List KeyWord) (i : Nat) :
    wordAt (expandStep nk w i) w.length =
      xorWord (scheduleTemp nk i (wordAt w (i - 1))) (wordAt w (i - nk)) := by
  simp [wordAt, expandStep]

@[simp] theorem keyWords_length (k : KeySize) (K : Vector Byte k.keyBytes) : (keyWords k K).length = k.nk := by
  simp [keyWords]

theorem buildSchedule_eq (k : KeySize) (s : State) :
    buildSchedule k s =
      { s with ksb := storeWords k (keyExpansion k (rawKey k s.key)) s.ksb, nk := some k } := by
  simp only [buildSchedule, State.setKsb, State.setNk]

end Sys2Proof.Machine
end

