-- ==== Sys2Proof/Laws/Decode.lean ====
section
/-! SUPPORT. The bits and the fields of a packed word (30_encoding.md rules R71, R73, R77) and the opcode lookup. -/

namespace Sys2Proof

/-- The bits of a packed word of format N, A or AB. -/
theorem packBytes_getLsbD (op a b : Byte) (i : Nat) :
    (packBytes op a b).getLsbD i =
      if i < 8 then false
      else if i < 16 then b.getLsbD (i - 8)
      else if i < 24 then a.getLsbD (i - 16)
      else op.getLsbD (i - 24) := by
  have h : packBytes op a b = (op ++ a ++ b ++ (0 : Byte) : BitVec (8 + 8 + 8 + 8)) := rfl
  rw [h, BitVec.getLsbD_append, BitVec.getLsbD_append, BitVec.getLsbD_append]
  simp only [Nat.sub_sub, Nat.reduceAdd, show i - 8 < 8 ↔ i < 16 by omega, show i - 16 < 8 ↔ i < 24 by omega]
  split <;> simp

/-- The bits of a packed word of format I. -/
theorem packImm_getLsbD (op : Byte) (imm16 : BitVec 16) (i : Nat) :
    (packImm op imm16).getLsbD i =
      if i < 16 then imm16.getLsbD i else if i < 24 then false else op.getLsbD (i - 24) := by
  have h : packImm op imm16 = (op ++ (0 : Byte) ++ imm16 : BitVec (8 + 8 + 16)) := rfl
  rw [h, BitVec.getLsbD_append, BitVec.getLsbD_append]
  simp only [Nat.sub_sub, Nat.reduceAdd, show i - 16 < 8 ↔ i < 24 by omega]
  split <;> [rfl; skip]
  split <;> simp

@[simp] theorem fieldOp_packBytes (op a b : Byte) : fieldOp (packBytes op a b) = op := by
  apply BitVec.eq_of_getLsbD_eq
  intro i hi
  simp only [fieldOp, BitVec.getLsbD_extractLsb', packBytes_getLsbD, hi]
  simp [show ¬ 24 + i < 8 by omega, show ¬ 24 + i < 16 by omega]

@[simp] theorem fieldA_packBytes (op a b : Byte) : fieldA (packBytes op a b) = a := by
  apply BitVec.eq_of_getLsbD_eq
  intro i hi
  simp only [fieldA, BitVec.getLsbD_extractLsb', packBytes_getLsbD, hi]
  simp [show ¬ 16 + i < 8 by omega, show 16 + i < 24 by omega]

@[simp] theorem fieldB_packBytes (op a b : Byte) : fieldB (packBytes op a b) = b := by
  apply BitVec.eq_of_getLsbD_eq
  intro i hi
  simp only [fieldB, BitVec.getLsbD_extractLsb', packBytes_getLsbD, hi]
  simp [show 8 + i < 16 by omega]

@[simp] theorem fieldOp_packImm (op : Byte) (imm16 : BitVec 16) : fieldOp (packImm op imm16) = op := by
  apply BitVec.eq_of_getLsbD_eq
  intro i hi
  simp only [fieldOp, BitVec.getLsbD_extractLsb', packImm_getLsbD, hi]
  simp [show ¬ 24 + i < 16 by omega]

@[simp] theorem fieldImm16_packImm (op : Byte) (imm16 : BitVec 16) : fieldImm16 (packImm op imm16) = imm16 := by
  apply BitVec.eq_of_getLsbD_eq
  intro i hi
  simp only [fieldImm16, BitVec.getLsbD_extractLsb', packImm_getLsbD, hi]
  simp [hi]

/-- The opcode byte of a row selects that row. -/
@[simp] theorem opcodeOf_opcodeByte (op : Opcode) : opcodeOf (opcodeByte op) = some op := by
  cases op <;> decide

/-- A byte that selects a row is the row's opcode byte. -/
theorem opcodeByte_of_opcodeOf {b : Byte} {op : Opcode} (h : opcodeOf b = some op) : opcodeByte op = b := by
  simpa using List.find?_some h

/-- A row's fixed bits are its opcode byte over three zero bytes (rule R72). -/
theorem opcodePattern_eq (op : Opcode) : opcodePattern op = packBytes (opcodeByte op) 0 0 := by
  cases op <;> decide

/-- Masking a packed word masks its fields. -/
theorem packBytes_and (op a b mo ma mb mz : Byte) :
    packBytes op a b &&& (mo ++ ma ++ mb ++ mz) = packBytes (op &&& mo) (a &&& ma) (b &&& mb) := by
  apply BitVec.eq_of_getLsbD_eq
  intro i hi
  have h : (mo ++ ma ++ mb ++ mz : BitVec 32).getLsbD i =
      if i < 8 then mz.getLsbD i
      else if i < 16 then mb.getLsbD (i - 8)
      else if i < 24 then ma.getLsbD (i - 16)
      else mo.getLsbD (i - 24) := by
    have h' : (mo ++ ma ++ mb ++ mz : BitVec 32) = (mo ++ ma ++ mb ++ mz : BitVec (8 + 8 + 8 + 8)) := rfl
    rw [h', BitVec.getLsbD_append, BitVec.getLsbD_append, BitVec.getLsbD_append]
    simp only [Nat.sub_sub, Nat.reduceAdd, show i - 8 < 8 ↔ i < 16 by omega, show i - 16 < 8 ↔ i < 24 by omega]
  rw [BitVec.getLsbD_and, h]
  simp only [packBytes_getLsbD]
  split <;> [simp; skip]
  split <;> [simp; skip]
  split <;> simp

/-- Masking a packed word of format I keeps its upper half. -/
theorem packImm_and (op : Byte) (imm16 : BitVec 16) :
    packImm op imm16 &&& 0xFFFF0000 = packBytes op 0 0 := by
  have hm : (0xFFFF0000 : CommandWord) = packImm 0xFF 0 ||| packBytes 0 0xFF 0 := by decide
  apply BitVec.eq_of_getLsbD_eq
  intro i hi
  rw [hm]
  have ho : ∀ j, j < 8 → (0xFF : Byte).getLsbD j = true := by decide
  simp only [BitVec.getLsbD_and, BitVec.getLsbD_or, packImm_getLsbD, packBytes_getLsbD]
  by_cases h8 : i < 8
  · simp [h8, show i < 16 by omega]
  by_cases h16 : i < 16
  · simp [h8, h16]
  by_cases h24 : i < 24
  · simp [h8, h16, h24]
  · simp only [h8, h16, h24, if_false, ho (i - 24) (by omega)]
    simp

/-- A packed word is its fields at their places (rule R77). -/
theorem packBytes_eq_or (op a b : Byte) :
    packBytes op a b = (op.setWidth 32 <<< 24) ||| (a.setWidth 32 <<< 16) ||| (b.setWidth 32 <<< 8) := by
  apply BitVec.eq_of_getLsbD_eq
  intro i hi
  rw [packBytes_getLsbD]
  simp only [BitVec.getLsbD_or, BitVec.getLsbD_shiftLeft, BitVec.getLsbD_setWidth, hi]
  by_cases h8 : i < 8
  · simp [h8, show i < 16 by omega, show i < 24 by omega]
  by_cases h16 : i < 16
  · simp [h8, h16, show i < 24 by omega, show i - 8 < 32 by omega]
  have hb := BitVec.getLsbD_of_ge b (i - 8) (by omega)
  by_cases h24 : i < 24
  · simp [h8, h16, h24, show i - 8 < 32 by omega, show i - 16 < 32 by omega, hb]
  · simp [h8, h16, h24, show i - 8 < 32 by omega, show i - 16 < 32 by omega, show i - 24 < 32 by omega, hb,
      BitVec.getLsbD_of_ge a (i - 16) (by omega)]

/-- A packed word of format I is its opcode byte and its immediate at their places (rule R77). -/
theorem packImm_eq_or (op : Byte) (imm16 : BitVec 16) :
    packImm op imm16 = (op.setWidth 32 <<< 24) ||| imm16.setWidth 32 := by
  apply BitVec.eq_of_getLsbD_eq
  intro i hi
  rw [packImm_getLsbD]
  simp only [BitVec.getLsbD_or, BitVec.getLsbD_shiftLeft, BitVec.getLsbD_setWidth, hi]
  by_cases h16 : i < 16
  · simp [h16, show i < 24 by omega]
  have hm := BitVec.getLsbD_of_ge imm16 i (by omega)
  by_cases h24 : i < 24
  · simp [h16, h24, hm]
  · simp [h16, h24, hm, show i - 24 < 32 by omega]

end Sys2Proof
end

