-- ==== Sys2Proof/Laws/State.lean ====
section
/-! SUPPORT. One lemma per field per writer of the state, so that no later proof unfolds a record update. -/

namespace Sys2Proof.Machine

@[simp] theorem State.setBlk_blk (s : State) (v : Block) : (s.setBlk v).blk = v := rfl
@[simp] theorem State.setBlk_key (s : State) (v : Block) : (s.setBlk v).key = s.key := rfl
@[simp] theorem State.setBlk_keyLen (s : State) (v : Block) : (s.setBlk v).keyLen = s.keyLen := rfl
@[simp] theorem State.setBlk_ksb (s : State) (v : Block) : (s.setBlk v).ksb = s.ksb := rfl
@[simp] theorem State.setBlk_nk (s : State) (v : Block) : (s.setBlk v).nk = s.nk := rfl
@[simp] theorem State.setBlk_res (s : State) (v : Block) : (s.setBlk v).res = s.res := rfl
@[simp] theorem State.setBlk_status (s : State) (v : Block) : (s.setBlk v).status = s.status := rfl
@[simp] theorem State.setBlk_host (s : State) (v : Block) : (s.setBlk v).host = s.host := rfl

@[simp] theorem State.setKey_blk (s : State) (v : KeyBuffer) : (s.setKey v).blk = s.blk := rfl
@[simp] theorem State.setKey_key (s : State) (v : KeyBuffer) : (s.setKey v).key = v := rfl
@[simp] theorem State.setKey_keyLen (s : State) (v : KeyBuffer) : (s.setKey v).keyLen = s.keyLen := rfl
@[simp] theorem State.setKey_ksb (s : State) (v : KeyBuffer) : (s.setKey v).ksb = s.ksb := rfl
@[simp] theorem State.setKey_nk (s : State) (v : KeyBuffer) : (s.setKey v).nk = s.nk := rfl
@[simp] theorem State.setKey_res (s : State) (v : KeyBuffer) : (s.setKey v).res = s.res := rfl
@[simp] theorem State.setKey_status (s : State) (v : KeyBuffer) : (s.setKey v).status = s.status := rfl
@[simp] theorem State.setKey_host (s : State) (v : KeyBuffer) : (s.setKey v).host = s.host := rfl

@[simp] theorem State.setKeyLen_blk (s : State) (v : Byte) : (s.setKeyLen v).blk = s.blk := rfl
@[simp] theorem State.setKeyLen_key (s : State) (v : Byte) : (s.setKeyLen v).key = s.key := rfl
@[simp] theorem State.setKeyLen_keyLen (s : State) (v : Byte) : (s.setKeyLen v).keyLen = v := rfl
@[simp] theorem State.setKeyLen_ksb (s : State) (v : Byte) : (s.setKeyLen v).ksb = s.ksb := rfl
@[simp] theorem State.setKeyLen_nk (s : State) (v : Byte) : (s.setKeyLen v).nk = s.nk := rfl
@[simp] theorem State.setKeyLen_res (s : State) (v : Byte) : (s.setKeyLen v).res = s.res := rfl
@[simp] theorem State.setKeyLen_status (s : State) (v : Byte) : (s.setKeyLen v).status = s.status := rfl
@[simp] theorem State.setKeyLen_host (s : State) (v : Byte) : (s.setKeyLen v).host = s.host := rfl

@[simp] theorem State.setKsb_blk (s : State) (v : ScheduleStore) : (s.setKsb v).blk = s.blk := rfl
@[simp] theorem State.setKsb_key (s : State) (v : ScheduleStore) : (s.setKsb v).key = s.key := rfl
@[simp] theorem State.setKsb_keyLen (s : State) (v : ScheduleStore) : (s.setKsb v).keyLen = s.keyLen := rfl
@[simp] theorem State.setKsb_ksb (s : State) (v : ScheduleStore) : (s.setKsb v).ksb = v := rfl
@[simp] theorem State.setKsb_nk (s : State) (v : ScheduleStore) : (s.setKsb v).nk = s.nk := rfl
@[simp] theorem State.setKsb_res (s : State) (v : ScheduleStore) : (s.setKsb v).res = s.res := rfl
@[simp] theorem State.setKsb_status (s : State) (v : ScheduleStore) : (s.setKsb v).status = s.status := rfl
@[simp] theorem State.setKsb_host (s : State) (v : ScheduleStore) : (s.setKsb v).host = s.host := rfl

@[simp] theorem State.setNk_blk (s : State) (v : Option KeySize) : (s.setNk v).blk = s.blk := rfl
@[simp] theorem State.setNk_key (s : State) (v : Option KeySize) : (s.setNk v).key = s.key := rfl
@[simp] theorem State.setNk_keyLen (s : State) (v : Option KeySize) : (s.setNk v).keyLen = s.keyLen := rfl
@[simp] theorem State.setNk_ksb (s : State) (v : Option KeySize) : (s.setNk v).ksb = s.ksb := rfl
@[simp] theorem State.setNk_nk (s : State) (v : Option KeySize) : (s.setNk v).nk = v := rfl
@[simp] theorem State.setNk_res (s : State) (v : Option KeySize) : (s.setNk v).res = s.res := rfl
@[simp] theorem State.setNk_status (s : State) (v : Option KeySize) : (s.setNk v).status = s.status := rfl
@[simp] theorem State.setNk_host (s : State) (v : Option KeySize) : (s.setNk v).host = s.host := rfl

@[simp] theorem State.setRes_blk (s : State) (v : Byte) : (s.setRes v).blk = s.blk := rfl
@[simp] theorem State.setRes_key (s : State) (v : Byte) : (s.setRes v).key = s.key := rfl
@[simp] theorem State.setRes_keyLen (s : State) (v : Byte) : (s.setRes v).keyLen = s.keyLen := rfl
@[simp] theorem State.setRes_ksb (s : State) (v : Byte) : (s.setRes v).ksb = s.ksb := rfl
@[simp] theorem State.setRes_nk (s : State) (v : Byte) : (s.setRes v).nk = s.nk := rfl
@[simp] theorem State.setRes_res (s : State) (v : Byte) : (s.setRes v).res = v := rfl
@[simp] theorem State.setRes_status (s : State) (v : Byte) : (s.setRes v).status = s.status := rfl
@[simp] theorem State.setRes_host (s : State) (v : Byte) : (s.setRes v).host = s.host := rfl

@[simp] theorem State.setStatus_blk (s : State) (v : StatusCode) : (s.setStatus v).blk = s.blk := rfl
@[simp] theorem State.setStatus_key (s : State) (v : StatusCode) : (s.setStatus v).key = s.key := rfl
@[simp] theorem State.setStatus_keyLen (s : State) (v : StatusCode) : (s.setStatus v).keyLen = s.keyLen := rfl
@[simp] theorem State.setStatus_ksb (s : State) (v : StatusCode) : (s.setStatus v).ksb = s.ksb := rfl
@[simp] theorem State.setStatus_nk (s : State) (v : StatusCode) : (s.setStatus v).nk = s.nk := rfl
@[simp] theorem State.setStatus_res (s : State) (v : StatusCode) : (s.setStatus v).res = s.res := rfl
@[simp] theorem State.setStatus_status (s : State) (v : StatusCode) : (s.setStatus v).status = v := rfl
@[simp] theorem State.setStatus_host (s : State) (v : StatusCode) : (s.setStatus v).host = s.host := rfl

@[simp] theorem State.setHost_blk (s : State) (v : List HostEvent) : (s.setHost v).blk = s.blk := rfl
@[simp] theorem State.setHost_key (s : State) (v : List HostEvent) : (s.setHost v).key = s.key := rfl
@[simp] theorem State.setHost_keyLen (s : State) (v : List HostEvent) : (s.setHost v).keyLen = s.keyLen := rfl
@[simp] theorem State.setHost_ksb (s : State) (v : List HostEvent) : (s.setHost v).ksb = s.ksb := rfl
@[simp] theorem State.setHost_nk (s : State) (v : List HostEvent) : (s.setHost v).nk = s.nk := rfl
@[simp] theorem State.setHost_res (s : State) (v : List HostEvent) : (s.setHost v).res = s.res := rfl
@[simp] theorem State.setHost_status (s : State) (v : List HostEvent) : (s.setHost v).status = s.status := rfl
@[simp] theorem State.setHost_host (s : State) (v : List HostEvent) : (s.setHost v).host = v := rfl

/-! The reset event (70_reset_and_hazards.md rule R200). -/

@[simp] theorem applyReset_blk (d : ResetData) (s : State) : (applyReset d s).blk = d.blk := rfl
@[simp] theorem applyReset_key (d : ResetData) (s : State) : (applyReset d s).key = d.key := rfl
@[simp] theorem applyReset_keyLen (d : ResetData) (s : State) : (applyReset d s).keyLen = 0 := rfl
@[simp] theorem applyReset_ksb (d : ResetData) (s : State) : (applyReset d s).ksb = d.ksb := rfl
@[simp] theorem applyReset_nk (d : ResetData) (s : State) : (applyReset d s).nk = none := rfl
@[simp] theorem applyReset_res (d : ResetData) (s : State) : (applyReset d s).res = d.res := rfl
@[simp] theorem applyReset_status (d : ResetData) (s : State) : (applyReset d s).status = statusOk := rfl
@[simp] theorem applyReset_host (d : ResetData) (s : State) : (applyReset d s).host = s.host := rfl

/-! The composite writers. -/

@[simp] theorem writeBlk_blk (s : State) (i : Fin 16) (v : Byte) : (writeBlk s i v).blk = s.blk.set i.val v i.isLt := rfl
@[simp] theorem writeBlk_key (s : State) (i : Fin 16) (v : Byte) : (writeBlk s i v).key = s.key := rfl
@[simp] theorem writeBlk_keyLen (s : State) (i : Fin 16) (v : Byte) : (writeBlk s i v).keyLen = s.keyLen := rfl
@[simp] theorem writeBlk_ksb (s : State) (i : Fin 16) (v : Byte) : (writeBlk s i v).ksb = s.ksb := rfl
@[simp] theorem writeBlk_nk (s : State) (i : Fin 16) (v : Byte) : (writeBlk s i v).nk = s.nk := rfl
@[simp] theorem writeBlk_res (s : State) (i : Fin 16) (v : Byte) : (writeBlk s i v).res = s.res := rfl
@[simp] theorem writeBlk_status (s : State) (i : Fin 16) (v : Byte) : (writeBlk s i v).status = s.status := rfl
@[simp] theorem writeBlk_host (s : State) (i : Fin 16) (v : Byte) : (writeBlk s i v).host = s.host := rfl
@[simp] theorem writeKey_blk (s : State) (i : Fin 32) (v : Byte) : (writeKey s i v).blk = s.blk := rfl
@[simp] theorem writeKey_key (s : State) (i : Fin 32) (v : Byte) : (writeKey s i v).key = s.key.set i.val v i.isLt := rfl
@[simp] theorem writeKey_keyLen (s : State) (i : Fin 32) (v : Byte) : (writeKey s i v).keyLen = s.keyLen := rfl
@[simp] theorem writeKey_ksb (s : State) (i : Fin 32) (v : Byte) : (writeKey s i v).ksb = s.ksb := rfl
@[simp] theorem writeKey_nk (s : State) (i : Fin 32) (v : Byte) : (writeKey s i v).nk = s.nk := rfl
@[simp] theorem writeKey_res (s : State) (i : Fin 32) (v : Byte) : (writeKey s i v).res = s.res := rfl
@[simp] theorem writeKey_status (s : State) (i : Fin 32) (v : Byte) : (writeKey s i v).status = s.status := rfl
@[simp] theorem writeKey_host (s : State) (i : Fin 32) (v : Byte) : (writeKey s i v).host = s.host := rfl

end Sys2Proof.Machine
end

