-- ==== Sys2Proof/Laws/Ops.lean ====
section
/-! SUPPORT. What each shared operation can answer, said once: the ways a command ends, the schedule check, and the
checks of the operands. -/

namespace Sys2Proof.Machine

/-! The ways a command ends (00_scope.md rule R10). -/

theorem finish_next {s t : State} : finish s = .next t ↔ t = s.setStatus statusOk := by
  simp [finish, eq_comm]

theorem raise_next {e : ErrorKind} {s t : State} : raise e s = .next t ↔ t = s.setStatus (errorCode e) := by
  simp [raise, eq_comm]

theorem produce_next {v : Byte} {s t : State} : produce v s = .next t ↔ t = (s.setRes v).setStatus statusOk := by
  simp [produce, finish_next]

theorem transform_next {f : Block → Block} {s t : State} :
    transform f s = .next t ↔ t = (s.setBlk (f s.blk)).setStatus statusOk := by
  simp [transform, finish_next]

/-- With no schedule the check raises NoSchedule (60_exceptions.md rule R187). -/
theorem withSchedule_none {s : State} {f : KeySize → Result} (h : s.nk = none) :
    withSchedule s f = raise .noSchedule s := by
  simp [withSchedule, h]

/-- With a schedule the command goes on with its key size. -/
theorem withSchedule_some {s : State} {f : KeySize → Result} {k : KeySize} (h : s.nk = some k) :
    withSchedule s f = f k := by
  simp [withSchedule, h]

/-- Everything the schedule check can answer. -/
theorem withSchedule_next {s t : State} {f : KeySize → Result} :
    withSchedule s f = .next t ↔
      (s.nk = none ∧ t = s.setStatus (errorCode .noSchedule)) ∨ ∃ k, s.nk = some k ∧ f k = .next t := by
  cases h : s.nk <;> simp [withSchedule, h, raise_next]

/-! Operand checks (20_memory.md rule R56). -/

theorem keyIndex?_eq_some {idx : Byte} {i : Fin 32} : keyIndex? idx = some i ↔ idx.toNat = i.val := by
  unfold keyIndex?
  split <;> simp [Fin.ext_iff]
  have := i.isLt
  omega

theorem keyIndex?_eq_none {idx : Byte} : keyIndex? idx = none ↔ 31 < idx.toNat := by
  unfold keyIndex?
  split <;> simp <;> omega

theorem blkIndex?_eq_some {idx : Byte} {i : Fin 16} : blkIndex? idx = some i ↔ idx.toNat = i.val := by
  unfold blkIndex?
  split <;> simp [Fin.ext_iff]
  have := i.isLt
  omega

theorem blkIndex?_eq_none {idx : Byte} : blkIndex? idx = none ↔ 15 < idx.toNat := by
  unfold blkIndex?
  split <;> simp <;> omega

theorem scheduleIndex?_eq_some {k : KeySize} {idx : Byte} {i : Fin 240} :
    scheduleIndex? k idx = some i ↔ idx.toNat = i.val ∧ idx.toNat < k.scheduleBytes := by
  unfold scheduleIndex?
  split <;> simp [Fin.ext_iff, *]

theorem scheduleIndex?_eq_none {k : KeySize} {idx : Byte} :
    scheduleIndex? k idx = none ↔ k.scheduleBytes ≤ idx.toNat := by
  unfold scheduleIndex?
  split <;> simp_all

theorem roundNumber?_eq_some {k : KeySize} {n : Byte} {r : Fin 15} :
    roundNumber? k n = some r ↔ n.toNat = r.val ∧ r.val ≤ k.nr.val := by
  unfold roundNumber?
  split <;> simp [Fin.ext_iff] <;> omega

theorem roundNumber?_eq_none {k : KeySize} {n : Byte} : roundNumber? k n = none ↔ k.nr.val < n.toNat := by
  unfold roundNumber?
  split <;> simp <;> omega

theorem keySize?_eq_some {imm16 : BitVec 16} {k : KeySize} : keySize? imm16 = some k ↔ imm16.toNat = k.bits := by
  have hb : k.bits = 32 * k.nk := rfl
  unfold keySize?
  split_ifs <;> cases k <;> simp only [KeySize.nk] at hb <;> constructor <;> intro h <;>
    first | omega | rfl | cases h

theorem keySize?_eq_none {imm16 : BitVec 16} : keySize? imm16 = none ↔ ∀ k : KeySize, imm16.toNat ≠ k.bits := by
  rw [Option.eq_none_iff_forall_ne_some]
  simp only [ne_eq, keySize?_eq_some]

theorem keyLengthMatches_iff {k : KeySize} {s : State} : keyLengthMatches k s = true ↔ s.keyLen.toNat = k.keyBytes := by
  simp [keyLengthMatches]

/-! The event the host presents next (70_reset_and_hazards.md rule R203). -/

theorem takeEvent_cons {s : State} {e : HostEvent} {rest : List HostEvent} (h : s.host = e :: rest) :
    takeEvent s = runEvent e (s.setHost rest) := by
  simp [takeEvent, h]

theorem takeEvent_nil {s : State} (h : s.host = []) : takeEvent s = .next s := by
  simp [takeEvent, h, idle]

/-- Everything one command word can do: the command it decodes to, or IllegalCommand (rule R75). -/
theorem runCommand_next {cw : CommandWord} {s t : State} :
    runCommand cw s = .next t ↔
      (∃ i, decode cw = .ok i ∧ exec i s = .next t) ∨
        (∃ e, decode cw = .error e) ∧ t = s.setStatus (errorCode .illegalCommand) := by
  cases h : decode cw <;> simp [runCommand, h, raise_next]

end Sys2Proof.Machine
end

