-- ==== Sys2Proof/Laws/Exec.lean ====
section
/-! SUPPORT. Everything a command and a step can do, said once (60_exceptions.md rule R180, 70_reset_and_hazards.md
rules R200, R203). -/

namespace Sys2Proof.Machine

/-- A command ends in one of two ways: it raises an error on the state it found, or it finishes with STATUS 0. -/
theorem exec_ends (i : Instr) (s : State) : (∃ e, exec i s = raise e s) ∨ ∃ t, exec i s = finish t := by
  cases i <;>
    simp only [exec, execGfadd, execGfsub, execGfmul, execSub, execIsub, execKeywr, execSetklen, execKexp, execKsrd,
      execBlkwr, execBlkrd, execSubbytes, execInvsubbytes, execShiftrows, execInvshiftrows, execMixcolumns,
      execInvmixcolumns, execAddroundkey, execEncblk, execDecblk, produce, transform, withSchedule] <;>
    (try split) <;> (try split) <;>
    first
      | exact .inl ⟨_, by with_reducible rfl⟩
      | exact .inr ⟨_, by with_reducible rfl⟩

/-- Everything a step can do: nothing while the host presents nothing, else what the event does to the state from which
it has been taken. -/
theorem step_next {s t : State} (h : step s = .next t) :
    (s.host = [] ∧ t = s) ∨ ∃ e rest, s.host = e :: rest ∧ runEvent e (s.setHost rest) = .next t := by
  cases hs : s.host with
  | nil =>
    rw [step, takeEvent_nil hs] at h
    exact .inl ⟨rfl, by simpa [eq_comm] using h⟩
  | cons e rest =>
    rw [step, takeEvent_cons hs] at h
    exact .inr ⟨e, rest, rfl, h⟩

/-- The reset event (rule R200). -/
theorem runEvent_reset (d : ResetData) (s : State) : runEvent (.reset d) s = .next (applyReset d s) := rfl

/-- A command word (rule R203). -/
theorem runEvent_command (cw : CommandWord) (s : State) : runEvent (.command cw) s = runCommand cw s := rfl

end Sys2Proof.Machine
end

