-- ==== Sys2Proof/Laws/PerInstr.lean ====
section
/-! SUPPORT. Per instruction: its word matches its own row of the opcode table (30_encoding.md rules R72, R74). -/

namespace Sys2Proof.Laws.MatchesRow

/-- The word of an instruction has the fixed bits of its row: `cw & mask = match`. -/
def Statement (i : Instr) : Prop :=
  encode i &&& formatMask (opcodeFormat (instrOpcode i)) = opcodePattern (instrOpcode i)

/-- Format AB keeps the opcode byte and a zero byte. -/
theorem format_ab (op : Opcode) (a b : Byte) :
    packBytes (opcodeByte op) a b &&& formatMask .ab = opcodePattern op := by
  have h : formatMask .ab = ((0xFF : Byte) ++ (0 : Byte) ++ (0 : Byte) ++ (0xFF : Byte) : BitVec 32) := by decide
  rw [h, packBytes_and, opcodePattern_eq, show (0xFF : Byte) = BitVec.allOnes 8 by decide, BitVec.and_allOnes]
  simp

/-- Format A keeps the opcode byte and two zero bytes. -/
theorem format_a (op : Opcode) (a : Byte) :
    packBytes (opcodeByte op) a 0 &&& formatMask .a = opcodePattern op := by
  have h : formatMask .a = ((0xFF : Byte) ++ (0 : Byte) ++ (0xFF : Byte) ++ (0xFF : Byte) : BitVec 32) := by decide
  rw [h, packBytes_and, opcodePattern_eq, show (0xFF : Byte) = BitVec.allOnes 8 by decide, BitVec.and_allOnes]
  simp

/-- Format N keeps the whole word. -/
theorem format_n (op : Opcode) : packBytes (opcodeByte op) 0 0 &&& formatMask .n = opcodePattern op := by
  cases op <;> decide

/-- Format I keeps the upper half of the word. -/
theorem format_i (op : Opcode) (imm16 : BitVec 16) :
    packImm (opcodeByte op) imm16 &&& formatMask .i = opcodePattern op := by
  rw [show formatMask .i = 0xFFFF0000 by decide, packImm_and, opcodePattern_eq]

theorem gfadd (a b : Byte) : Statement (.gfadd a b) := format_ab .gfadd a b
theorem gfsub (a b : Byte) : Statement (.gfsub a b) := format_ab .gfsub a b
theorem gfmul (a b : Byte) : Statement (.gfmul a b) := format_ab .gfmul a b
theorem sub (a : Byte) : Statement (.sub a) := format_a .sub a
theorem isub (a : Byte) : Statement (.isub a) := format_a .isub a
theorem keywr (a b : Byte) : Statement (.keywr a b) := format_ab .keywr a b
theorem setklen (a : Byte) : Statement (.setklen a) := format_a .setklen a
theorem kexp (imm16 : BitVec 16) : Statement (.kexp imm16) := format_i .kexp imm16
theorem ksrd (a : Byte) : Statement (.ksrd a) := format_a .ksrd a
theorem blkwr (a b : Byte) : Statement (.blkwr a b) := format_ab .blkwr a b
theorem blkrd (a : Byte) : Statement (.blkrd a) := format_a .blkrd a
theorem subbytes : Statement .subbytes := format_n .subbytes
theorem invsubbytes : Statement .invsubbytes := format_n .invsubbytes
theorem shiftrows : Statement .shiftrows := format_n .shiftrows
theorem invshiftrows : Statement .invshiftrows := format_n .invshiftrows
theorem mixcolumns : Statement .mixcolumns := format_n .mixcolumns
theorem invmixcolumns : Statement .invmixcolumns := format_n .invmixcolumns
theorem addroundkey (a : Byte) : Statement (.addroundkey a) := format_a .addroundkey a
theorem encblk : Statement .encblk := format_n .encblk
theorem decblk : Statement .decblk := format_n .decblk

end Sys2Proof.Laws.MatchesRow
end

