-- ==== Sys2Proof/Tests/Slice0.lean ====
section
/-! SUPPORT. The model's own tests. Every expected result is a line of spec/ (95_test_vectors.md unless another file is
named). The witnesses at the end show, for each statement with hypotheses, a state and operands that meet them. -/

open Sys2Proof Sys2Proof.Machine

namespace Sys2Proof.Tests

/-! Small states to start from. -/

/-- The 16 bytes a hexadecimal number of 32 digits spells, in stream order. -/
def blockOf (n : Nat) : Block := Vector.ofFn fun i => BitVec.ofNat 8 (n >>> (8 * (15 - i.val)))

/-- The number the bytes of a block spell, in stream order. -/
def spell (b : Block) : Nat := b.toList.foldl (fun a v => 256 * a + v.toNat) 0

/-- The core after reset with this block. -/
def withBlock (n : Nat) : State := { State.reset with blk := blockOf n }

/-- KEY holding 00, 01, 02 and so on. -/
def countingKey : KeyBuffer := Vector.ofFn fun i => BitVec.ofNat 8 i.val

/-- The core with that key and `n` bytes of it declared. -/
def withKey (n : Byte) : State := { State.reset with key := countingKey, keyLen := n }

/-- The core after KEXP of size `k` on that key, the keys of section 1.2, with this block. -/
def scheduled (k : KeySize) (n : Nat) : State := { buildSchedule k (withKey 0) with blk := blockOf n }

/-- The core with a schedule of size `k` counted as built, without its bytes. -/
def counted (k : KeySize) : State := { State.reset with nk := some k }

/-- One observation of the state a command leaves. -/
def seen {α : Type} (r : Result) (f : State → α) : Option α :=
  match r with
  | .next t => some (f t)
  | .fault _ => none
  | .refused _ => none

/-- The block after a command, and STATUS. -/
def blockAfter (i : Instr) (s : State) : Option (Nat × StatusCode) := seen (exec i s) fun t => (spell t.blk, t.status)

/-- RES and STATUS after a command. -/
def resAfter (i : Instr) (s : State) : Option (Byte × StatusCode) := seen (exec i s) fun t => (t.res, t.status)

/-! ## Decoding: the words of section 2.1, one for each command and each KEXP size -/

theorem test_decode_gf :
    decode 0x01578300 = .ok (.gfadd 0x57 0x83) ∧ decode 0x02FF0F00 = .ok (.gfsub 0xFF 0x0F) ∧
      decode 0x03578300 = .ok (.gfmul 0x57 0x83) := by decide

theorem test_decode_sbox : decode 0x08530000 = .ok (.sub 0x53) ∧ decode 0x09ED0000 = .ok (.isub 0xED) := by decide

theorem test_decode_key :
    decode 0x101FFF00 = .ok (.keywr 31 0xFF) ∧ decode 0x11200000 = .ok (.setklen 32) ∧
      decode 0x12000080 = .ok (.kexp 128) ∧ decode 0x120000C0 = .ok (.kexp 192) ∧
      decode 0x12000100 = .ok (.kexp 256) ∧ decode 0x13EF0000 = .ok (.ksrd 239) := by decide

theorem test_decode_block : decode 0x200FA500 = .ok (.blkwr 15 0xA5) ∧ decode 0x210F0000 = .ok (.blkrd 15) := by decide

theorem test_decode_transforms :
    decode 0x30000000 = .ok .subbytes ∧ decode 0x31000000 = .ok .invsubbytes ∧ decode 0x32000000 = .ok .shiftrows ∧
      decode 0x33000000 = .ok .invshiftrows ∧ decode 0x34000000 = .ok .mixcolumns ∧
      decode 0x35000000 = .ok .invmixcolumns ∧ decode 0x360E0000 = .ok (.addroundkey 14) := by decide

theorem test_decode_engine : decode 0x40000000 = .ok .encblk ∧ decode 0x41000000 = .ok .decblk := by decide

/-- Section 2.1: opcodes that are not assigned. -/
theorem test_decode_unassigned :
    ([0x00000000, 0xFFFFFFFF, 0x04000000, 0x0A000000, 0x14000000, 0x22000000, 0x37000000, 0x42000000, 0x80000000] :
        List CommandWord).all (fun cw => decode cw == .error (.unassignedOpcode (fieldOp cw))) = true := by decide

/-- Section 2.1: a bit set in a field that must be zero. -/
theorem test_decode_nonzero_field :
    decode 0x40000001 = .error (.nonZeroField .encblk) ∧ decode 0x41000100 = .error (.nonZeroField .decblk) ∧
      decode 0x30010000 = .error (.nonZeroField .subbytes) ∧ decode 0x08530001 = .error (.nonZeroField .sub) ∧
      decode 0x08530100 = .error (.nonZeroField .sub) ∧ decode 0x360A0080 = .error (.nonZeroField .addroundkey) ∧
      decode 0x03578301 = .error (.nonZeroField .gfmul) ∧ decode 0x100000FF = .error (.nonZeroField .keywr) ∧
      decode 0x12010080 = .error (.nonZeroField .kexp) ∧ decode 0x12FF0100 = .error (.nonZeroField .kexp) := by decide

/-- The table numbers the bits of the one word from its least significant. -/
theorem test_decode_table_word :
    decodeTableWord 32 0x360A0000 = some (.addroundkey 10) ∧ decodeTableWord 32 0 = none := by decide

/-! ## WellFormed: one ill-formed line for each check (30_encoding.md rules R77, R78) -/

theorem test_ill_formed_lines :
    AsmLine.wellFormed (.command .encblk [0]) = false ∧ AsmLine.wellFormed (.command .sub []) = false ∧
      AsmLine.wellFormed (.command .sub [256]) = false ∧ AsmLine.wellFormed (.command .gfmul [1]) = false ∧
      AsmLine.wellFormed (.command .gfmul [256, 0]) = false ∧ AsmLine.wellFormed (.command .gfmul [0, 256]) = false ∧
      AsmLine.wellFormed (.command .kexp []) = false ∧ AsmLine.wellFormed (.command .kexp [65536]) = false ∧
      AsmLine.wellFormed (.ldkey (List.replicate 33 0)) = false ∧
      AsmLine.wellFormed (.ldblk (List.replicate 15 0)) = false := by decide

/-- An index that fits its field but not its buffer is the core's to refuse (rule R77). -/
theorem test_well_formed_lines :
    AsmLine.wellFormed (.command .blkwr [255, 255]) = true ∧ AsmLine.wellFormed (.command .kexp [65535]) = true ∧
      AsmLine.wellFormed (.ldkey (List.replicate 32 0)) = true ∧ AsmLine.wellFormed .rdblk = true := by decide

/-- Two examples of rule R77, read from their text. -/
theorem test_assemble_text :
    assembleText ['G', 'F', 'M', 'U', 'L', ' ', '0', 'x', '5', '7', ',', ' ', '0', 'x', '8', '3', ' ', ';', 'c'] =
        some [0x03578300] ∧
      assembleText ['K', 'E', 'X', 'P', ' ', '2', '5', '6'] = some [0x12000100] := by decide

/-! ## The step -/

/-- From reset, the word the host presents next is the first command that runs (P1, line 1). -/
theorem test_step_first_word : seen (step (State.reset.withFetchWord 32 0x03578300)) (fun t => (t.res, t.status, t.host)) =
    some (0xC1, 0, []) := by decide

/-- An illegal word writes 4 to STATUS (section 2.1). -/
theorem test_step_illegal : seen (step (State.reset.withFetchWord 32 0x41000100)) (fun t => (t.res, t.status)) =
    some (0, 4) := by decide

/-! ## One command at a time -/

/-- Section 2.9: a success clears an earlier error. -/
theorem test_gfadd : resAfter (.gfadd 0x57 0x83) { State.reset with status := 5 } = some (0xD4, 0) := by decide
theorem test_gfsub : resAfter (.gfsub 0x57 0x83) State.reset = some (0xD4, 0) := by decide
theorem test_gfmul : resAfter (.gfmul 0x57 0x83) State.reset = some (0xC1, 0) := by decide
theorem test_gfmul_reduces : resAfter (.gfmul 0xFF 0xFF) State.reset = some (0x13, 0) := by decide
theorem test_sub : resAfter (.sub 0x53) State.reset = some (0xED, 0) := by decide
theorem test_isub : resAfter (.isub 0xED) State.reset = some (0x53, 0) := by decide

theorem test_keywr : seen (exec (.keywr 31 0xFF) State.reset) (fun t => (t.key[31], t.key[30], t.status)) =
    some (0xFF, 0, 0) := by decide
theorem test_keywr_out : seen (exec (.keywr 32 0xFF) State.reset) (fun t => (t.key[31], t.status)) = some (0, 5) := by
  decide
theorem test_setklen : seen (exec (.setklen 255) State.reset) (fun t => (t.keyLen, t.status)) = some (255, 0) := by decide
theorem test_blkwr : seen (exec (.blkwr 15 0xA5) State.reset) (fun t => (t.blk[15], t.blk[14], t.status)) =
    some (0xA5, 0, 0) := by decide
theorem test_blkwr_out : seen (exec (.blkwr 16 0xA5) State.reset) (fun t => (t.blk[0], t.status)) = some (0, 5) := by
  decide
theorem test_blkrd : resAfter (.blkrd 4) (withBlock 0x00112233445566778899aabbccddeeff) = some (0x44, 0) := by
  decide +kernel
/-- RES is stale after the error. -/
theorem test_blkrd_out : resAfter (.blkrd 16) { State.reset with res := 0x05 } = some (0x05, 5) := by decide

/-- Section 2.4: words 4 and 43 of the 128-bit schedule. -/
theorem test_kexp_128 : seen (exec (.kexp 128) (withKey 16))
    (fun t => (storedWord t.ksb 4, storedWord t.ksb 43, t.nk, t.status)) =
    some (⟨0xd6, 0xaa, 0x74, 0xfd⟩, ⟨0x4d, 0x2b, 0x30, 0xc5⟩, some .k128, 0) := by decide +kernel
/-- 43_key_schedule.md rule R126: word 12 of the 256-bit schedule takes the second branch. -/
theorem test_kexp_256 : seen (exec (.kexp 256) (withKey 32)) (fun t => (storedWord t.ksb 12, t.nk, t.status)) =
    some (⟨0x16, 0x51, 0xa8, 0xcd⟩, some .k256, 0) := by decide +kernel

/-- Section 2.9: the last byte of the 192-bit schedule, and one past it. -/
theorem test_ksrd : resAfter (.ksrd 207) (scheduled .k192 0) = some (0x5d, 0) ∧
    resAfter (.ksrd 208) (counted .k192) = some (0, 5) := by decide +kernel
/-- NoSchedule before IllegalOperand. -/
theorem test_ksrd_unkeyed : resAfter (.ksrd 255) State.reset = some (0, 6) := by decide

/-! Section 2.5. -/

theorem test_subbytes : blockAfter .subbytes (withBlock 0x00102030405060708090a0b0c0d0e0f0) =
    some (0x63cab7040953d051cd60e0e7ba70e18c, 0) := by decide +kernel
theorem test_invsubbytes : blockAfter .invsubbytes (withBlock 0x00112233445566778899aabbccddeeff) =
    some (0x52e3946686edd30297f962fe27c9997d, 0) := by decide +kernel
theorem test_shiftrows : blockAfter .shiftrows (withBlock 0x000102030405060708090a0b0c0d0e0f) =
    some (0x00050a0f04090e03080d02070c01060b, 0) := by decide +kernel
theorem test_invshiftrows : blockAfter .invshiftrows (withBlock 0x000102030405060708090a0b0c0d0e0f) =
    some (0x000d0a0704010e0b0805020f0c090603, 0) := by decide +kernel
theorem test_mixcolumns : blockAfter .mixcolumns (withBlock 0x6353e08c0960e104cd70b751bacad0e7) =
    some (0x5f72641557f5bc92f7be3b291db9f91a, 0) := by decide +kernel
theorem test_invmixcolumns : blockAfter .invmixcolumns (withBlock 0x000102030405060708090a0b0c0d0e0f) =
    some (0x0a0f080d0e0b0c090207000506030401, 0) := by decide +kernel
theorem test_addroundkey : blockAfter (.addroundkey 1) (scheduled .k128 0x5f72641557f5bc92f7be3b291db9f91a) =
    some (0x89d810e8855ace682d1843d8cb128fe4, 0) := by decide +kernel
theorem test_addroundkey_out : blockAfter (.addroundkey 13) (counted .k192) = some (0, 5) := by decide +kernel

/-! Section 1.2: the known answers. -/

theorem test_encblk_128 : blockAfter .encblk (scheduled .k128 0x00112233445566778899aabbccddeeff) =
    some (0x69c4e0d86a7b0430d8cdb78070b4c55a, 0) := by decide +kernel
theorem test_encblk_256 : blockAfter .encblk (scheduled .k256 0x00112233445566778899aabbccddeeff) =
    some (0x8ea2b7ca516745bfeafc49904b496089, 0) := by decide +kernel
theorem test_decblk_192 : blockAfter .decblk (scheduled .k192 0xdda97ca4864cdfe06eaf70a0ec0d7191) =
    some (0x00112233445566778899aabbccddeeff, 0) := by decide +kernel
theorem test_decblk_unkeyed : blockAfter .decblk State.reset = some (0, 6) := by decide +kernel

/-! ## Witnesses: states and operands that meet the hypotheses of the statements, at the ends of their ranges -/

/-- The core with these events still to come. -/
def facing (events : List HostEvent) : State := { State.reset with host := events }

/-- A RESET_DATA that is not all zero. -/
def someData : ResetData := { ResetData.zero with res := 0xA5 }

theorem witness_DecodedWordIsItsOwnEncoding : decode 0x12FFFF00 ≠ .ok (.kexp 0xFF00) ∧
    decode 0x1200FF00 = .ok (.kexp 0xFF00) := by decide

theorem witness_DecodeAcceptsExactlyTheTableRows :
    (⟨.sub, 0x08000000, 0xFF00FFFF⟩ : TableRow) ∈ specTable ∧
      (0x08FF0000 : CommandWord) &&& 0xFF00FFFF = 0x08000000 ∧ decode 0x08FF0000 = .ok (.sub 0xFF) := by decide

theorem witness_AssemblerEncodesAndRejectsByRule :
    opcodeFormat .gfadd = .ab ∧ opcodeFormat .sub = .a ∧ opcodeFormat .encblk = .n ∧ opcodeFormat .kexp = .i ∧
      255 ≤ 255 ∧ 65535 ≤ 65535 ∧ (255 < 256 ∨ 255 < 0) ∧ (255 < 0 ∨ 255 < 256) ∧ 65535 < 65536 := by decide

theorem witness_PseudoInstructionsExpandInOrder :
    (List.replicate 32 (0 : Byte)).length ≤ 32 ∧ ([] : List Byte).length ≤ 32 ∧
      (List.replicate 16 (0 : Byte)).length = 16 ∧ 32 < (List.replicate 33 (0 : Byte)).length ∧
      (List.replicate 15 (0 : Byte)).length ≠ 16 := by decide

theorem witness_StepRunsTheDecodedCommand :
    (facing [.command 0x08530000, .command 0]).host = .command 0x08530000 :: [.command 0] ∧
      decode 0x08530000 = .ok (.sub 0x53) := ⟨rfl, by decide⟩

theorem witness_IllegalWordChangesOnlyStatus :
    (facing [.command 0x41000100]).host = .command 0x41000100 :: [] ∧
      ∀ r ∈ specTable, ¬ (0x41000100 : CommandWord) &&& r.mask = r.pattern := ⟨rfl, by decide⟩

theorem witness_ResetEventLeavesTheResetState :
    (facing [.reset someData, .command 0]).host = .reset someData :: [.command 0] := rfl

theorem witness_IdleCoreKeepsItsState : State.reset.host = [] := rfl

/-- The lengths on both sides of each key length. -/
theorem witness_SetklenDeclaresTheKeyLength :
    (15 : Byte).toNat ∉ [16, 24, 32] ∧ (0 : Byte).toNat ∉ [16, 24, 32] ∧ (33 : Byte).toNat ∉ [16, 24, 32] ∧
      (255 : Byte).toNat ∉ [16, 24, 32] := by decide

theorem witness_KeywrWritesOneKeyByte : (31 : Byte).toNat ≤ 31 ∧ 31 < (32 : Byte).toNat ∧ 31 < (255 : Byte).toNat := by
  decide

theorem witness_BlkwrWritesOneBlockByte :
    (15 : Byte).toNat ≤ 15 ∧ 15 < (16 : Byte).toNat ∧ 15 < (255 : Byte).toNat := by decide

theorem witness_BlkrdReadsOneBlockByte :
    (15 : Byte).toNat ≤ 15 ∧ 15 < (16 : Byte).toNat ∧ 15 < (255 : Byte).toNat := by decide

/-- The last byte of each schedule and the one past it. -/
theorem witness_KsrdReadsOneScheduleByte :
    State.reset.nk = none ∧ (counted .k128).nk = some .k128 ∧
      16 * (KeySize.k128.nk + 7) - 1 < (176 : Byte).toNat ∧ (175 : Byte).toNat = (175 : Fin 240).val ∧
      (175 : Fin 240).val ≤ 16 * (KeySize.k128.nk + 7) - 1 ∧
      16 * (KeySize.k192.nk + 7) - 1 < (208 : Byte).toNat ∧ (207 : Fin 240).val ≤ 16 * (KeySize.k192.nk + 7) - 1 ∧
      16 * (KeySize.k256.nk + 7) - 1 < (240 : Byte).toNat ∧ (239 : Fin 240).val ≤ 16 * (KeySize.k256.nk + 7) - 1 ∧
      (256 : BitVec 16).toNat = 32 * KeySize.k256.nk ∧ (withKey 32).keyLen.toNat = (256 : BitVec 16).toNat / 8 ∧
      (31 : Byte).toNat = (31 : Fin 32).val ∧ (31 : Fin 32).val < 4 * KeySize.k256.nk := by
  decide

theorem witness_BlkrdReturnsTheLatestWrite :
    (15 : Byte).toNat ≤ 15 ∧ (0 : Byte).toNat ≤ 15 ∧ (0 : Byte) ≠ 15 := by decide

theorem witness_GmulIsTheReducedPolynomialProduct :
    Represents 0x01 1 ∧ Represents 0x02 Polynomial.X ∧ Represents (gmul 0x01 0x02) Polynomial.X := by
  have hx : Represents 0x02 Polynomial.X := by
    intro i
    rw [Polynomial.coeff_X]
    match i with
    | 0 => decide
    | 1 => decide
    | n + 2 =>
      have low : ∀ m : Fin 8, 2 ≤ m.val → (0x02 : Byte).getLsbD m.val = false := by decide
      have hn : (0x02 : Byte).getLsbD (n + 2) = false := by
        by_cases h : n + 2 < 8
        · exact low ⟨n + 2, h⟩ (by simp)
        · exact BitVec.getLsbD_of_ge _ _ (by omega)
      rw [hn]
      simp
  refine ⟨fun i => ?_, hx, by rwa [show gmul 0x01 0x02 = 0x02 by decide]⟩
  rw [Polynomial.coeff_one]
  match i with
  | 0 => decide
  | n + 1 => simp

theorem witness_GmulObeysTheFieldLaws : (0x53 : Byte) ≠ 0 ∧ gmul 0x53 0xCA = 0x01 := by decide

theorem witness_SboxIsTheAffineMapOfTheInverse :
    ((0 : Byte) = 0 ∧ (0 : Byte) = 0) ∧ gmul 0x53 0xCA = 0x01 := by decide

theorem witness_RoundConstantsDouble : 2 ≤ 9 ∧ rc 9 = 0x1b ∧ 1 ≤ 14 := by decide

/-- The first computed word, the last, and one of each branch. -/
theorem witness_KeyExpansionFollowsItsRecurrence :
    KeySize.k256.nk ≤ 8 ∧ 59 < 4 * (KeySize.k256.nk + 7) ∧ 8 % KeySize.k256.nk = 0 ∧ 6 < KeySize.k256.nk ∧
      12 % KeySize.k256.nk = 4 ∧ ¬ 6 < KeySize.k192.nk ∧ KeySize.k192.nk ≤ 10 ∧ 10 % KeySize.k192.nk = 4 := by decide

theorem witness_KexpBuildsTheScheduleOrChangesOnlyStatus :
    ((129 : BitVec 16).toNat ≠ 128 ∧ (129 : BitVec 16).toNat ≠ 192 ∧ (129 : BitVec 16).toNat ≠ 256) ∧
      (192 : BitVec 16).toNat = 192 ∧ (withKey 16).keyLen.toNat ≠ (192 : BitVec 16).toNat / 8 ∧
      (256 : BitVec 16).toNat = 32 * KeySize.k256.nk ∧ (withKey 32).keyLen.toNat = (256 : BitVec 16).toNat / 8 := by
  decide

/-- Two keys that agree on their first 16 bytes and differ at byte 31. -/
theorem witness_ScheduleDependsOnTheRawKeyAlone :
    (128 : BitVec 16).toNat = KeySize.k128.bits ∧ (withKey 16).keyLen.toNat = KeySize.k128.keyBytes ∧
      (∀ i : Fin 32, i.val < KeySize.k128.keyBytes →
        (withKey 16).key[i] = ((withKey 16).setKey (countingKey.set 31 0)).key[i]) ∧
      (withKey 16).key[31] ≠ ((withKey 16).setKey (countingKey.set 31 0)).key[31] := by decide +kernel

/-- The last round number of each schedule and the one past it. -/
theorem witness_AddroundkeyXorsTheRoundKey :
    State.reset.nk = none ∧ (counted .k128).nk = some .k128 ∧ KeySize.k128.nk + 6 < (11 : Byte).toNat ∧
      (10 : Byte).toNat = (10 : Fin 15).val ∧ (10 : Fin 15).val ≤ KeySize.k128.nk + 6 ∧
      KeySize.k192.nk + 6 < (13 : Byte).toNat ∧ (12 : Fin 15).val ≤ KeySize.k192.nk + 6 ∧
      KeySize.k256.nk + 6 < (15 : Byte).toNat ∧ (14 : Fin 15).val ≤ KeySize.k256.nk + 6 := by decide

theorem witness_EncblkEncryptsTheBlock : State.reset.nk = none ∧ (scheduled .k128 0).nk = some .k128 := ⟨rfl, rfl⟩

theorem witness_DecblkDecryptsTheBlock : State.reset.nk = none ∧ (scheduled .k256 0).nk = some .k256 := ⟨rfl, rfl⟩

theorem witness_EncblkIsTheElementaryCommandsInOrder : (scheduled .k192 0).nk = some .k192 := rfl

theorem witness_DecblkIsTheElementaryCommandsInOrder : (scheduled .k128 0).nk = some .k128 := rfl

theorem witness_EncryptionAndDecryptionInvertEachOther : (scheduled .k256 0).nk = some .k256 := rfl

theorem witness_ErrorChangesOnlyStatus :
    exec (.blkrd 16) State.reset = .next (State.reset.setStatus 5) ∧ (State.reset.setStatus 5).status ≠ 0 :=
  ⟨rfl, by decide⟩

theorem witness_EachItemIsWrittenOnlyByItsCommands :
    exec (.gfadd 1 2) State.reset = .next ((State.reset.setRes 3).setStatus 0) ∧
      instrOpcode (.gfadd 1 2) ∉ [Opcode.blkwr, .subbytes, .invsubbytes, .shiftrows, .invshiftrows, .mixcolumns,
        .invmixcolumns, .addroundkey, .encblk, .decblk] ∧
      instrOpcode (.gfadd 1 2) ≠ .keywr ∧ instrOpcode (.gfadd 1 2) ≠ .setklen ∧ instrOpcode (.gfadd 1 2) ≠ .kexp ∧
      instrOpcode .encblk ∉ [Opcode.gfadd, .gfsub, .gfmul, .sub, .isub, .blkrd, .ksrd] := ⟨rfl, by decide⟩

theorem witness_EachItemIsReadOnlyByItsCommands :
    instrOpcode (.kexp 128) ∉ [Opcode.blkrd, .subbytes, .invsubbytes, .shiftrows, .invshiftrows, .mixcolumns,
        .invmixcolumns, .addroundkey, .encblk, .decblk] ∧
      instrOpcode .encblk ≠ .kexp ∧ instrOpcode (.kexp 128) ∉ [Opcode.ksrd, .addroundkey, .encblk, .decblk] := by decide

theorem witness_ErrorsAreReportedInTheirOrder :
    decode 0 = .error (.unassignedOpcode 0) ∧ (∀ i, decode 0 ≠ .ok i) ∧ State.reset.nk = none ∧
      (counted .k128).nk = some .k128 ∧ 16 * (KeySize.k128.nk + 7) - 1 < (176 : Byte).toNat ∧
      KeySize.k128.nk + 6 < (11 : Byte).toNat ∧ (100 : BitVec 16).toNat ∉ [128, 192, 256] ∧
      (192 : BitVec 16).toNat ∈ [128, 192, 256] ∧ (withKey 16).keyLen.toNat ≠ (192 : BitVec 16).toNat / 8 :=
  have h : decode 0 = .error (.unassignedOpcode 0) := by decide
  ⟨h, fun i => (by rw [h]; simp), rfl, by decide⟩

theorem witness_NkStaysNonzeroUntilReset :
    { counted .k128 with host := [.command 0] }.nk ≠ none ∧
      (∀ d rest, { counted .k128 with host := [.command 0] }.host ≠ .reset d :: rest) ∧
      step { counted .k128 with host := [.command 0] } = .next ((counted .k128).setStatus 4) :=
  ⟨by decide, by simp, rfl⟩

theorem witness_EveryStepKeepsStatusLegal :
    StatusLegal (facing [.command 0]) ∧ step (facing [.command 0]) = .next (State.reset.setStatus 4) :=
  ⟨by simp [StatusLegal, facing, State.reset, coreStatusCodes, statusOk], rfl⟩

/-- With a schedule: the expansion of the counting key. -/
theorem witness_EveryStepKeepsTheScheduleSound :
    (buildSchedule .k128 (withKey 16)).nk = some .k128 ∧ ScheduleSound (buildSchedule .k128 (withKey 16)) ∧
      step (buildSchedule .k128 (withKey 16)) = .next (buildSchedule .k128 (withKey 16)) := by
  refine ⟨rfl, fun k hk => ?_, takeEvent_nil rfl⟩
  obtain rfl : KeySize.k128 = k := Option.some.inj hk
  refine ⟨rawKey .k128 countingKey, fun i hi => ?_⟩
  rw [buildSchedule_eq, Fin.getElem_fin, storeWords_get, if_pos hi]
  rfl

/-- Two states that differ at the last byte of the store, under a 192-bit schedule. -/
theorem witness_UnreachableScheduleBytesStayHidden :
    SameToHost (counted .k192) { counted .k192 with ksb := ResetData.zero.ksb.set 239 1 } ∧
      step (counted .k192) = .next (counted .k192) := by
  refine ⟨⟨rfl, rfl, rfl, rfl, rfl, rfl, rfl, fun k hk i hi => ?_⟩, takeEvent_nil rfl⟩
  obtain rfl : KeySize.k192 = k := Option.some.inj hk
  have hi' : i.val < 208 := hi
  exact (Vector.getElem_set_ne (hi := by decide) (hj := i.isLt) (by omega)).symm

theorem witness_BuildKeyScheduleReportsAndBuilds :
    100 ∉ [128, 192, 256] ∧ 70000 ∉ [128, 192, 256] ∧ 256 ∈ [128, 192, 256] ∧
      (List.replicate 33 (0 : Byte)).length ≠ 256 / 8 ∧ 256 = KeySize.k256.bits ∧
      List.replicate 32 (0 : Byte) = (Vector.replicate KeySize.k256.keyBytes (0 : Byte)).toList := by decide

theorem witness_DecryptReturnsThePaddedPlaintext : (scheduled .k128 0).nk = some .k128 := rfl

theorem witness_DecryptRefusesPartialBlocks :
    (List.replicate 1 (0 : Byte)).length % 16 ≠ 0 ∧ (List.replicate 17 (0 : Byte)).length % 16 ≠ 0 := by decide

theorem witness_HostCallsWithoutAScheduleFail :
    State.reset.nk = none ∧ [(1 : Byte)] ≠ [] ∧ (List.replicate 16 (0 : Byte)).length % 16 = 0 ∧
      List.replicate 16 (0 : Byte) ≠ [] := by decide

/-- The second chunk of one buffer and the first of another, on two cores. -/
theorem witness_ChunksAreProcessedIndependently :
    (Instr.decblk = .encblk ∨ Instr.decblk = .decblk) ∧ (counted .k256).nk = some .k256 ∧
      (∀ n : Fin 240, n.val < KeySize.k256.scheduleBytes →
        (counted .k256).ksb[n] = ((counted .k256).setRes 1).ksb[n]) ∧
      ∀ m < 16, chunkByte (List.replicate 16 0 ++ List.replicate 16 7) 1 m = chunkByte (List.replicate 16 7) 0 m :=
  ⟨.inr rfl, rfl, fun _ _ => rfl, by decide⟩

theorem witness_RunsEndWithOneObservationPerCommand : [(0x08530000 : CommandWord), 0] ≠ [] := by decide

end Sys2Proof.Tests
end

section
/-! The scope family (00_scope.md): a step is the decoded command on the state without the taken event, and a command
that ends in an error leaves everything but STATUS as it was. Both go through the laws of Laws/Ops and Laws/Exec. -/

namespace Sys2Proof.Machine

/-! What a command's STATUS says of how it ended (rules R10, R180). -/

/-- A command that finished answers STATUS `OK`. -/
theorem status_of_finish_eq_next {s t : State} (h : finish s = .next t) : t.status = 0 := by
  rw [finish_next.mp h]
  rfl

/-- A command that raised an error answers the state it found, but for STATUS. -/
theorem eq_setStatus_of_raise_eq_next {e : ErrorKind} {s t : State} (h : raise e s = .next t) :
    t = s.setStatus t.status := by
  rw [raise_next.mp h]
  rfl

/-- Settles O45: of the two ways a command ends, finishing would leave STATUS 0, so it raised an error. -/
theorem errorChangesOnlyStatus : Obligations.ErrorChangesOnlyStatus := by
  intro i s t hexec hstatus
  obtain ⟨e, hraise⟩ | ⟨u, hfinish⟩ := exec_ends i s
  · exact eq_setStatus_of_raise_eq_next (hraise.symm.trans hexec)
  · exact absurd (status_of_finish_eq_next (hfinish.symm.trans hexec)) hstatus

/-! What a step does with a command word (rules R2, R55, R58). -/

/-- A word that decodes to a command runs that command. -/
theorem runCommand_of_decode_ok {cw : CommandWord} {i : Instr} (s : State) (h : decode cw = .ok i) :
    runCommand cw s = exec i s := by
  simp only [runCommand, h]

/-- A step with an event to take is that event on the state from which it has been taken. -/
theorem step_of_host_cons {s : State} {e : HostEvent} {rest : List HostEvent} (h : s.host = e :: rest) :
    step s = runEvent e (s.setHost rest) :=
  takeEvent_cons h

/-- Settles O7: the step takes the event, the event is a command word, and the word decodes to `i`. -/
theorem stepRunsTheDecodedCommand : Obligations.StepRunsTheDecodedCommand := by
  intro s cw rest i hhost hdecode
  calc step s
    _ = runEvent (.command cw) (s.setHost rest) := step_of_host_cons hhost
    _ = runCommand cw (s.setHost rest) := runEvent_command cw _
    _ = exec i (s.setHost rest) := runCommand_of_decode_ok _ hdecode

end Sys2Proof.Machine
end

section
/-! SUPPORT. The effect of a command: the one item it writes and with what, or the error it raises (10_state.md rules
R20, R35; 60_exceptions.md rule R180). `exec_eq_next_apply` ties it to `exec`; what commands read, write and keep is
then said of the seven effects and not again of the twenty commands. -/

namespace Sys2Proof.Machine

/-- The store after a KEXP on the raw key `K`. It is irreducible so that no unification expands a key. -/
@[irreducible] def expandedStore (k : KeySize) (K : Vector Byte k.keyBytes) (old : ScheduleStore) : ScheduleStore :=
  storeWords k (keyExpansion k K) old

theorem buildSchedule_eq_expandedStore (k : KeySize) (s : State) :
    buildSchedule k s = (s.setKsb (expandedStore k (rawKey k s.key) s.ksb)).setNk (some k) := by
  unfold expandedStore
  rfl

/-- What a command does to the state it finds. -/
inductive Effect where
  /-- An error is raised. -/
  | error (e : ErrorKind)
  /-- RES receives a byte. -/
  | result (v : Byte)
  /-- BLK is replaced. -/
  | block (S : Block)
  /-- One byte of BLK is written. -/
  | blockByte (i : Fin 16) (v : Byte)
  /-- One byte of KEY is written. -/
  | keyByte (i : Fin 32) (v : Byte)
  /-- KEYLEN is written. -/
  | keyLength (n : Byte)
  /-- The schedule of a raw key is built: KSB and NK are written. -/
  | schedule (k : KeySize) (K : Vector Byte k.keyBytes)

/-- The item an effect writes, written; an error writes none (rule R180). -/
def Effect.write : Effect → State → State
  | .error _, s => s
  | .result v, s => s.setRes v
  | .block S, s => s.setBlk S
  | .blockByte i v, s => writeBlk s i v
  | .keyByte i v, s => writeKey s i v
  | .keyLength n, s => s.setKeyLen n
  | .schedule k K, s => (s.setKsb (expandedStore k K s.ksb)).setNk (some k)

/-- The value an effect gives STATUS (rule R181). -/
def Effect.status : Effect → StatusCode
  | .error e => errorCode e
  | _ => statusOk

/-- The state an effect leaves. -/
def Effect.apply (e : Effect) (s : State) : State := (e.write s).setStatus e.status

/-- An effect that needs an operand in range (rule R186). -/
def Effect.atIndex {ι : Type} (index : Option ι) (f : ι → Effect) : Effect :=
  match index with
  | none => .error .illegalOperand
  | some i => f i

/-- An effect that needs a schedule (rule R187). -/
def Effect.underSchedule (nk : Option KeySize) (f : KeySize → Effect) : Effect :=
  match nk with
  | none => .error .noSchedule
  | some k => f k

/-- The effect of KEXP (rule R126). -/
def kexpEffect (imm16 : BitVec 16) (s : State) : Effect :=
  match keySize? imm16 with
  | none => .error .invalidKeySize
  | some k => if keyLengthMatches k s then .schedule k (rawKey k s.key) else .error .invalidKeyLength

/-- The effect of a command on the state it finds. -/
def effect (i : Instr) (s : State) : Effect :=
  match i with
  | .gfadd a b => .result (gadd a b)
  | .gfsub a b => .result (gsub a b)
  | .gfmul a b => .result (gmul a b)
  | .sub a => .result (sbox a)
  | .isub a => .result (invSbox a)
  | .keywr idx val => .atIndex (keyIndex? idx) fun i => .keyByte i val
  | .setklen n => .keyLength n
  | .kexp imm16 => kexpEffect imm16 s
  | .ksrd idx => .underSchedule s.nk fun k => .atIndex (scheduleIndex? k idx) fun i => .result (readKsb s i)
  | .blkwr idx val => .atIndex (blkIndex? idx) fun i => .blockByte i val
  | .blkrd idx => .atIndex (blkIndex? idx) fun i => .result (readBlk s i)
  | .subbytes => .block (subBytes s.blk)
  | .invsubbytes => .block (invSubBytes s.blk)
  | .shiftrows => .block (shiftRows s.blk)
  | .invshiftrows => .block (invShiftRows s.blk)
  | .mixcolumns => .block (mixColumns s.blk)
  | .invmixcolumns => .block (invMixColumns s.blk)
  | .addroundkey n =>
    .underSchedule s.nk fun k => .atIndex (roundNumber? k n) fun r => .block (addRoundKey s.ksb r s.blk)
  | .encblk => .underSchedule s.nk fun k => .block (cipher k s.ksb s.blk)
  | .decblk => .underSchedule s.nk fun k => .block (invCipher k s.ksb s.blk)

/-- The schedule check of the model is that of the effects (rules R187, R188). -/
theorem withSchedule_eq_next_apply {s : State} {f : KeySize → Result} {g : KeySize → Effect}
    (h : ∀ k, f k = .next ((g k).apply s)) :
    withSchedule s f = .next ((Effect.underSchedule s.nk g).apply s) := by
  cases hk : s.nk with
  | none => exact withSchedule_none hk
  | some k => exact (withSchedule_some hk).trans (h k)

/-- KEXP does what its effect says. -/
theorem execKexp_eq_next_apply (imm16 : BitVec 16) (s : State) :
    execKexp imm16 s = .next ((kexpEffect imm16 s).apply s) := by
  unfold execKexp kexpEffect
  cases keySize? imm16 with
  | none => rfl
  | some k =>
    dsimp only
    split
    · rw [buildSchedule_eq_expandedStore]
      rfl
    · rfl

/-- Every command does what its effect says, and so answers a next state. -/
theorem exec_eq_next_apply (i : Instr) (s : State) : exec i s = .next ((effect i s).apply s) := by
  cases i
  case kexp imm16 => exact execKexp_eq_next_apply imm16 s
  case keywr idx val =>
    simp only [exec, execKeywr, effect]
    cases keyIndex? idx <;> rfl
  case blkwr idx val =>
    simp only [exec, execBlkwr, effect]
    cases blkIndex? idx <;> rfl
  case blkrd idx =>
    simp only [exec, execBlkrd, effect]
    cases blkIndex? idx <;> rfl
  case ksrd idx =>
    refine withSchedule_eq_next_apply fun k => ?_
    cases scheduleIndex? k idx <;> rfl
  case addroundkey n =>
    refine withSchedule_eq_next_apply fun k => ?_
    cases roundNumber? k n <;> rfl
  case encblk => exact withSchedule_eq_next_apply fun k => rfl
  case decblk => exact withSchedule_eq_next_apply fun k => rfl
  all_goals rfl

theorem exec_eq_next_iff {i : Instr} {s t : State} : exec i s = .next t ↔ t = (effect i s).apply s := by
  rw [exec_eq_next_apply, Host.Outcome.next.injEq, eq_comm]

/-! What a command may write (rule R35). -/

/-- The items of rule R20 that commands write, beside STATUS; KSB and NK are written together (rule R126). -/
inductive Item where
  | blk
  | key
  | keyLen
  | schedule
  | res
deriving DecidableEq

/-- The item an effect writes; an error writes none. -/
def Effect.item : Effect → Option Item
  | .error _ => none
  | .result _ => some .res
  | .block _ | .blockByte _ _ => some .blk
  | .keyByte _ _ => some .key
  | .keyLength _ => some .keyLen
  | .schedule _ _ => some .schedule

/-- The w marks of the access matrix: each command has one (rule R35). -/
def writtenItem : Opcode → Item
  | .gfadd | .gfsub | .gfmul | .sub | .isub | .ksrd | .blkrd => .res
  | .keywr => .key
  | .setklen => .keyLen
  | .kexp => .schedule
  | .blkwr | .subbytes | .invsubbytes | .shiftrows | .invshiftrows | .mixcolumns | .invmixcolumns | .addroundkey
  | .encblk | .decblk => .blk

/-- An effect a command with this w mark can have: it writes that item, or it is an error the core raises (rule R184:
never InvalidCiphertextLength). -/
def Effect.Allowed (item : Item) (e : Effect) : Prop :=
  e.item = some item ∨ ∃ kind, kind ≠ .invalidCiphertextLength ∧ e = .error kind

theorem Effect.allowed_error {item : Item} {kind : ErrorKind} (h : kind ≠ .invalidCiphertextLength) :
    Effect.Allowed item (.error kind) :=
  .inr ⟨kind, h, rfl⟩

theorem Effect.allowed_atIndex {ι : Type} {item : Item} {index : Option ι} {f : ι → Effect}
    (h : ∀ i, (f i).Allowed item) : (Effect.atIndex index f).Allowed item := by
  cases index with
  | none => exact allowed_error (by decide)
  | some i => exact h i

theorem Effect.allowed_underSchedule {item : Item} {nk : Option KeySize} {f : KeySize → Effect}
    (h : ∀ k, (f k).Allowed item) : (Effect.underSchedule nk f).Allowed item := by
  cases nk with
  | none => exact allowed_error (by decide)
  | some k => exact h k

theorem kexpEffect_allowed (imm16 : BitVec 16) (s : State) : (kexpEffect imm16 s).Allowed .schedule := by
  unfold kexpEffect
  cases keySize? imm16 with
  | none => exact Effect.allowed_error (by decide)
  | some k =>
    dsimp only
    split
    · exact .inl rfl
    · exact Effect.allowed_error (by decide)

/-- A command writes the item of its w mark, or raises an error of the core. -/
theorem effect_allowed (i : Instr) (s : State) : (effect i s).Allowed (writtenItem (instrOpcode i)) := by
  cases i
  case kexp imm16 => exact kexpEffect_allowed imm16 s
  case keywr | blkwr | blkrd => exact Effect.allowed_atIndex fun _ => .inl rfl
  case ksrd | addroundkey => exact Effect.allowed_underSchedule fun _ => Effect.allowed_atIndex fun _ => .inl rfl
  case encblk | decblk => exact Effect.allowed_underSchedule fun _ => .inl rfl
  all_goals exact .inl rfl

/-- A command writes no item but that of its w mark. -/
theorem effect_item_ne {i : Instr} {item : Item} (s : State) (h : writtenItem (instrOpcode i) ≠ item) :
    (effect i s).item ≠ some item := by
  obtain hitem | ⟨kind, -, heq⟩ := effect_allowed i s
  · rw [hitem]
    exact fun hsome => h (Option.some.inj hsome)
  · rw [heq]
    exact (Option.some_ne_none item).symm

/-! The w marks column by column. -/

theorem mem_of_writtenItem_eq_blk {op : Opcode} (h : writtenItem op = .blk) :
    op ∈ [Opcode.blkwr, .subbytes, .invsubbytes, .shiftrows, .invshiftrows, .mixcolumns, .invmixcolumns, .addroundkey,
      .encblk, .decblk] := by
  revert h
  cases op <;> decide

theorem eq_of_writtenItem_eq_key {op : Opcode} (h : writtenItem op = .key) : op = .keywr := by
  revert h
  cases op <;> decide

theorem eq_of_writtenItem_eq_keyLen {op : Opcode} (h : writtenItem op = .keyLen) : op = .setklen := by
  revert h
  cases op <;> decide

theorem eq_of_writtenItem_eq_schedule {op : Opcode} (h : writtenItem op = .schedule) : op = .kexp := by
  revert h
  cases op <;> decide

theorem mem_of_writtenItem_eq_res {op : Opcode} (h : writtenItem op = .res) :
    op ∈ [Opcode.gfadd, .gfsub, .gfmul, .sub, .isub, .blkrd, .ksrd] := by
  revert h
  cases op <;> decide

/-! What an effect leaves unchanged. -/

theorem Effect.apply_blk {e : Effect} (s : State) (h : e.item ≠ some .blk) : (e.apply s).blk = s.blk := by
  cases e
  case block | blockByte => exact absurd rfl h
  all_goals rfl

theorem Effect.apply_key {e : Effect} (s : State) (h : e.item ≠ some .key) : (e.apply s).key = s.key := by
  cases e
  case keyByte => exact absurd rfl h
  all_goals rfl

theorem Effect.apply_keyLen {e : Effect} (s : State) (h : e.item ≠ some .keyLen) : (e.apply s).keyLen = s.keyLen := by
  cases e
  case keyLength => exact absurd rfl h
  all_goals rfl

theorem Effect.apply_ksb {e : Effect} (s : State) (h : e.item ≠ some .schedule) : (e.apply s).ksb = s.ksb := by
  cases e
  case schedule => exact absurd rfl h
  all_goals rfl

theorem Effect.apply_nk {e : Effect} (s : State) (h : e.item ≠ some .schedule) : (e.apply s).nk = s.nk := by
  cases e
  case schedule => exact absurd rfl h
  all_goals rfl

theorem Effect.apply_res {e : Effect} (s : State) (h : e.item ≠ some .res) : (e.apply s).res = s.res := by
  cases e
  case result => exact absurd rfl h
  all_goals rfl

@[simp] theorem Effect.apply_host (e : Effect) (s : State) : (e.apply s).host = s.host := by
  cases e <;> rfl

/-- An effect never undoes a schedule (rule R27). -/
theorem Effect.apply_nk_ne_none (e : Effect) {s : State} (h : s.nk ≠ none) : (e.apply s).nk ≠ none := by
  cases e
  case schedule k K => exact Option.some_ne_none k
  all_goals exact h

theorem Effect.apply_schedule_nk (k : KeySize) (K : Vector Byte k.keyBytes) (s : State) :
    ((Effect.schedule k K).apply s).nk = some k := rfl

theorem statusLegal_of_status_eq_ok {s : State} (h : s.status = statusOk) : StatusLegal s := by
  simp [StatusLegal, coreStatusCodes, h]

/-- Only InvalidCiphertextLength has a code the core never writes (rule R184). -/
theorem errorCode_mem_coreStatusCodes {kind : ErrorKind} (h : kind ≠ .invalidCiphertextLength) :
    errorCode kind ∈ coreStatusCodes := by
  cases kind
  case invalidCiphertextLength => exact absurd rfl h
  all_goals decide

/-- What a command may do leaves a legal STATUS: `OK` with an item written, else the code of a core error. -/
theorem Effect.Allowed.apply_statusLegal {item : Item} {e : Effect} (h : e.Allowed item) (s : State) :
    StatusLegal (e.apply s) := by
  obtain hitem | ⟨kind, hkind, rfl⟩ := h
  · cases e
    case error => cases hitem
    all_goals exact statusLegal_of_status_eq_ok rfl
  · exact errorCode_mem_coreStatusCodes hkind

/-! Command words and steps. -/

/-- The effect of a command word: that of the command it decodes to, or IllegalCommand (rule R75). -/
def wordEffect (cw : CommandWord) (s : State) : Effect :=
  match decode cw with
  | .ok i => effect i s
  | .error _ => .error .illegalCommand

theorem runCommand_eq_next_apply (cw : CommandWord) (s : State) :
    runCommand cw s = .next ((wordEffect cw s).apply s) := by
  unfold runCommand wordEffect
  cases decode cw with
  | ok i => exact exec_eq_next_apply i s
  | error => rfl

theorem wordEffect_allowed (cw : CommandWord) (s : State) : ∃ item, (wordEffect cw s).Allowed item := by
  unfold wordEffect
  cases decode cw with
  | ok i => exact ⟨_, effect_allowed i s⟩
  | error => exact ⟨.res, Effect.allowed_error (by decide)⟩

/-- Everything a step can do: nothing, the effect of a command word, or a reset. -/
theorem step_next_cases {s t : State} (h : step s = .next t) :
    (s.host = [] ∧ t = s) ∨
      (∃ cw rest, s.host = .command cw :: rest ∧ t = (wordEffect cw (s.setHost rest)).apply (s.setHost rest)) ∨
        ∃ d rest, s.host = .reset d :: rest ∧ t = applyReset d (s.setHost rest) := by
  obtain hidle | ⟨e, rest, hhost, hrun⟩ := step_next h
  · exact .inl hidle
  cases e with
  | command cw =>
    rw [runEvent_command, runCommand_eq_next_apply] at hrun
    exact .inr (.inl ⟨cw, rest, hhost, (Host.Outcome.next.inj hrun).symm⟩)
  | reset d => exact .inr (.inr ⟨d, rest, hhost, (Host.Outcome.next.inj hrun).symm⟩)

/-- A predicate that does not speak of the host's list, holds after every reset and is kept by every command word is
kept by every step. -/
theorem step_keeps {P : State → Prop} (hhost : ∀ s rest, P s → P (s.setHost rest))
    (hcommand : ∀ cw s, P s → P ((wordEffect cw s).apply s)) (hreset : ∀ d s, P (applyReset d s))
    {s t : State} (hs : P s) (h : step s = .next t) : P t := by
  obtain ⟨-, rfl⟩ | ⟨cw, rest, -, rfl⟩ | ⟨d, rest, -, rfl⟩ := step_next_cases h
  · exact hs
  · exact hcommand cw _ (hhost s rest hs)
  · exact hreset d _

end Sys2Proof.Machine
end

section
/-! The state family (10_state.md): the reset values, the invariants of STATUS, of NK and of the schedule, the access
matrix, and what the bytes above the schedule cannot do. All but the reset values go through the effect of a
command. -/

namespace Sys2Proof.Machine

/-! STATUS (rules R25, R28, R181). -/

/-- Settles O51: a command finishes with `OK` or raises one of the core's errors, and a reset clears STATUS. -/
theorem everyStepKeepsStatusLegal : Obligations.EveryStepKeepsStatusLegal := by
  intro s t hs hstep
  refine step_keeps (fun _ _ h => h) (fun cw s _ => ?_) (fun d s => ?_) hs hstep
  · obtain ⟨item, hallowed⟩ := wordEffect_allowed cw s
    exact hallowed.apply_statusLegal s
  · exact statusLegal_of_status_eq_ok (applyReset_status d s)

/-! The schedule (rules R23, R27, R33). -/

/-- The store holds the expansion that has just been written to it. -/
theorem holdsExpansion_expandedStore (k : KeySize) (K : Vector Byte k.keyBytes) (old : ScheduleStore) :
    HoldsExpansion k K (expandedStore k K old) := by
  unfold expandedStore
  intro i hi
  rw [Fin.getElem_fin, storeWords_get, if_pos hi]

theorem Effect.holdsExpansion_apply_schedule (k : KeySize) (K : Vector Byte k.keyBytes) (s : State) :
    HoldsExpansion k K ((Effect.schedule k K).apply s).ksb :=
  holdsExpansion_expandedStore k K s.ksb

/-- With NK = 0 there is no schedule to speak of. -/
theorem scheduleSound_of_nk_eq_none {s : State} (h : s.nk = none) : ScheduleSound s := by
  intro k hk
  rw [h] at hk
  cases hk

/-- KEXP writes an expansion, and no other effect touches KSB or NK. -/
theorem Effect.apply_scheduleSound (e : Effect) {s : State} (h : ScheduleSound s) : ScheduleSound (e.apply s) := by
  cases e
  case schedule k K =>
    intro k' hk
    obtain rfl : k = k' := Option.some.inj hk
    exact ⟨K, Effect.holdsExpansion_apply_schedule k K s⟩
  all_goals exact h

/-- Settles O52: every effect keeps the schedule sound, and a reset leaves none. -/
theorem everyStepKeepsTheScheduleSound : Obligations.EveryStepKeepsTheScheduleSound := by
  intro s t hs hstep
  refine step_keeps (fun _ _ h => h) (fun cw s h => ?_) (fun d s => ?_) hs hstep
  · exact (wordEffect cw s).apply_scheduleSound h
  · exact scheduleSound_of_nk_eq_none (applyReset_nk d s)

/-- Settles O50: an idle core keeps NK, and no effect undoes a schedule. -/
theorem nkStaysNonzeroUntilReset : Obligations.NkStaysNonzeroUntilReset := by
  intro s t hs hnoReset hstep
  obtain ⟨-, rfl⟩ | ⟨cw, rest, -, rfl⟩ | ⟨d, rest, hhost, -⟩ := step_next_cases hstep
  · exact hs
  · exact Effect.apply_nk_ne_none _ hs
  · exact absurd hhost (hnoReset d rest)

/-! The bytes above the schedule (rules R23, R187). -/

section
variable {k : KeySize} {ks ks' : ScheduleStore}

/-- A round key of a schedule lies within it. -/
theorem roundKey_index_lt {r : Fin 15} (hr : r.val ≤ k.nr.val) {j : Nat} (hj : j < 16) :
    16 * r.val + j < k.scheduleBytes := by
  have hnr : k.nr.val = k.nk + 6 := by cases k <;> rfl
  unfold KeySize.scheduleBytes
  omega

/-- A middle round has a round key in the schedule. -/
theorem le_nr_of_mem_middleRounds {r : Fin 15} (hr : r ∈ middleRounds k) : r.val ≤ k.nr.val := by
  simp only [middleRounds, List.mem_filter, Bool.and_eq_true, decide_eq_true_eq] at hr
  omega

variable (h : ∀ i : Fin 240, i.val < k.scheduleBytes → ks[i] = ks'[i])
include h

/-- AddRoundKey reads the schedule alone. -/
theorem addRoundKey_congr {r : Fin 15} (hr : r.val ≤ k.nr.val) (S : Block) :
    addRoundKey ks r S = addRoundKey ks' r S := by
  apply Vector.ext
  intro j hj
  have hbyte := h ⟨16 * r.val + j, by omega⟩ (roundKey_index_lt hr hj)
  simp only [Fin.getElem_fin] at hbyte
  simp only [addRoundKey_get, roundKey_get, hbyte]

/-- The forward cipher reads the schedule alone (rule R160). -/
theorem cipher_congr (S : Block) : cipher k ks S = cipher k ks' S := by
  have hround : ∀ S, ∀ r ∈ middleRounds k, cipherRound ks S r = cipherRound ks' S r := fun S r hr =>
    addRoundKey_congr h (le_nr_of_mem_middleRounds hr) _
  unfold cipher
  rw [addRoundKey_congr h le_rfl, addRoundKey_congr h (r := 0) (Nat.zero_le _), List.foldl_ext _ _ _ hround]

/-- The inverse cipher reads the schedule alone (rule R161). -/
theorem invCipher_congr (S : Block) : invCipher k ks S = invCipher k ks' S := by
  have hround : ∀ S, ∀ r ∈ (middleRounds k).reverse, invCipherRound ks S r = invCipherRound ks' S r := fun S r hr =>
    congrArg invMixColumns (addRoundKey_congr h (le_nr_of_mem_middleRounds (List.mem_reverse.mp hr)) _)
  unfold invCipher
  rw [addRoundKey_congr h le_rfl, addRoundKey_congr h (r := 0) (Nat.zero_le _), List.foldl_ext _ _ _ hround]

end

/-- Effects that need a schedule agree when they agree under the schedule now held. -/
theorem Effect.underSchedule_congr {nk : Option KeySize} {f g : KeySize → Effect}
    (h : ∀ k, nk = some k → f k = g k) : Effect.underSchedule nk f = Effect.underSchedule nk g := by
  cases nk with
  | none => rfl
  | some k => exact h k rfl

/-- Effects that need an operand in range agree when they agree at the operand's index. -/
theorem Effect.atIndex_congr {ι : Type} {index : Option ι} {f g : ι → Effect}
    (h : ∀ i, index = some i → f i = g i) : Effect.atIndex index f = Effect.atIndex index g := by
  cases index with
  | none => rfl
  | some i => exact h i rfl

/-- KEXP reads KEY and KEYLEN alone (rule R35). -/
theorem kexpEffect_congr {s t : State} (imm16 : BitVec 16) (hkey : s.key = t.key) (hlen : s.keyLen = t.keyLen) :
    kexpEffect imm16 s = kexpEffect imm16 t := by
  have hmatches : ∀ k, keyLengthMatches k s = keyLengthMatches k t := fun k => by
    unfold keyLengthMatches
    rw [hlen]
  simp only [kexpEffect, hmatches, hkey]

/-- A command has one effect on two states the host cannot tell apart: what it reads of KSB lies within the schedule. -/
theorem SameToHost.effect_eq {s t : State} (h : SameToHost s t) (i : Instr) : effect i s = effect i t := by
  obtain ⟨hblk, hkey, hlen, hnk, -, -, -, hks⟩ := h
  cases i
  case kexp imm16 => exact kexpEffect_congr imm16 hkey hlen
  case ksrd idx =>
    simp only [effect, ← hnk]
    refine Effect.underSchedule_congr fun k hk => Effect.atIndex_congr fun i hi => ?_
    obtain ⟨hidx, hlt⟩ := scheduleIndex?_eq_some.mp hi
    exact congrArg Effect.result (hks k hk i (hidx ▸ hlt))
  case addroundkey n =>
    simp only [effect, ← hnk, ← hblk]
    refine Effect.underSchedule_congr fun k hk => Effect.atIndex_congr fun r hr => ?_
    exact congrArg Effect.block (addRoundKey_congr (hks k hk) (roundNumber?_eq_some.mp hr).2 s.blk)
  case encblk =>
    simp only [effect, ← hnk, ← hblk]
    exact Effect.underSchedule_congr fun k hk => congrArg Effect.block (cipher_congr (hks k hk) s.blk)
  case decblk =>
    simp only [effect, ← hnk, ← hblk]
    exact Effect.underSchedule_congr fun k hk => congrArg Effect.block (invCipher_congr (hks k hk) s.blk)
  all_goals simp only [effect, readBlk, hblk]

/-- Two schedules that agree on their own bytes are the same to the host. -/
theorem SameToHost.setSchedule {s t : State} (h : SameToHost s t) {k : KeySize} {ks ks' : ScheduleStore}
    (hks : ∀ i : Fin 240, i.val < k.scheduleBytes → ks[i] = ks'[i]) :
    SameToHost ((s.setKsb ks).setNk (some k)) ((t.setKsb ks').setNk (some k)) := by
  refine ⟨h.blk, h.key, h.keyLen, rfl, h.res, h.status, h.host, fun k' hk => ?_⟩
  obtain rfl : k = k' := Option.some.inj hk
  exact hks

/-- One write keeps two such states such. -/
theorem SameToHost.write {s t : State} (h : SameToHost s t) (e : Effect) : SameToHost (e.write s) (e.write t) := by
  cases e
  case error => exact h
  case schedule k K =>
    exact h.setSchedule fun i hi =>
      (holdsExpansion_expandedStore k K s.ksb i hi).trans (holdsExpansion_expandedStore k K t.ksb i hi).symm
  case result => exact { h with res := rfl }
  case block => exact { h with blk := rfl }
  case blockByte j v => exact { h with blk := congrArg (·.set j.val v j.isLt) h.blk }
  case keyByte j v => exact { h with key := congrArg (·.set j.val v j.isLt) h.key }
  case keyLength => exact { h with keyLen := rfl }

/-- One effect keeps two such states such. -/
theorem SameToHost.apply {s t : State} (h : SameToHost s t) (e : Effect) : SameToHost (e.apply s) (e.apply t) :=
  { h.write e with status := rfl }

theorem SameToHost.setHost {s t : State} (h : SameToHost s t) (events : List HostEvent) :
    SameToHost (s.setHost events) (t.setHost events) :=
  { h with host := rfl }

theorem SameToHost.wordEffect_eq {s t : State} (h : SameToHost s t) (cw : CommandWord) :
    wordEffect cw s = wordEffect cw t := by
  unfold wordEffect
  cases decode cw with
  | ok i => exact h.effect_eq i
  | error => rfl

/-- A reset with the same RESET_DATA leaves the same state but for the host's list. -/
theorem SameToHost.applyReset {s t : State} (h : SameToHost s t) (d : ResetData) :
    SameToHost (applyReset d s) (applyReset d t) :=
  ⟨rfl, rfl, rfl, rfl, rfl, rfl, h.host, fun _ _ _ _ => rfl⟩

/-- Settles O54: the two states have the same events to come, and every event keeps the difference hidden. -/
theorem unreachableScheduleBytesStayHidden : Obligations.UnreachableScheduleBytesStayHidden := by
  intro s t u h hstep
  obtain ⟨hhost, rfl⟩ | ⟨cw, rest, hhost, rfl⟩ | ⟨d, rest, hhost, rfl⟩ := step_next_cases hstep
  · exact ⟨t, takeEvent_nil (h.host ▸ hhost), h⟩
  · have hrest := h.setHost rest
    refine ⟨_, ?_, hrest.apply _⟩
    rw [step_of_host_cons (h.host ▸ hhost), runEvent_command, runCommand_eq_next_apply, hrest.wordEffect_eq]
  · exact ⟨_, step_of_host_cons (h.host ▸ hhost), (h.setHost rest).applyReset d⟩

/-! The raw key alone makes the schedule (rules R22, R125). -/

/-- With a selector of size `k` and the key length of that size, KEXP builds the schedule. -/
theorem effect_kexp {s : State} {imm16 : BitVec 16} {k : KeySize} (hsize : imm16.toNat = k.bits)
    (hlen : s.keyLen.toNat = k.keyBytes) : effect (.kexp imm16) s = .schedule k (rawKey k s.key) := by
  simp only [effect, kexpEffect, keySize?_eq_some.mpr hsize, if_pos (keyLengthMatches_iff.mpr hlen)]

/-- The raw key of size `k` is the first bytes of KEY. -/
theorem rawKey_congr {k : KeySize} {key key' : KeyBuffer}
    (h : ∀ i : Fin 32, i.val < k.keyBytes → key[i] = key'[i]) : rawKey k key = rawKey k key' := by
  apply Vector.ext
  intro i hi
  rw [rawKey_get, rawKey_get]
  exact h ⟨i, Nat.lt_of_lt_of_le hi (keyBytes_le k)⟩ hi

/-- Settles O32: KEXP succeeds in both and stores one expansion. -/
theorem scheduleDependsOnTheRawKeyAlone : Obligations.ScheduleDependsOnTheRawKeyAlone := by
  intro s t imm16 k hsize hs ht hkey
  have hu := exec_eq_next_apply (.kexp imm16) s
  have hv := exec_eq_next_apply (.kexp imm16) t
  rw [effect_kexp hsize hs] at hu
  rw [effect_kexp hsize ht, ← rawKey_congr hkey] at hv
  refine ⟨_, _, hu, hv, (Effect.apply_schedule_nk ..).trans (Effect.apply_schedule_nk ..).symm, fun i hi => ?_⟩
  exact (Effect.holdsExpansion_apply_schedule k _ s i hi).trans (Effect.holdsExpansion_apply_schedule k _ t i hi).symm

/-! The w columns of the access matrix (rule R35). -/

/-- Settles O47: a command writes the item of its w mark or none, so outside a column it writes another. -/
theorem eachItemIsWrittenOnlyByItsCommands : Obligations.EachItemIsWrittenOnlyByItsCommands := by
  intro i s t hexec
  rw [exec_eq_next_iff.mp hexec]
  refine ⟨fun hi => ?_, fun hi => ?_, fun hi => ?_, fun hi => ?_, fun hi => ?_, Effect.apply_host _ s⟩
  · exact Effect.apply_blk s (effect_item_ne s (mt mem_of_writtenItem_eq_blk hi))
  · exact Effect.apply_key s (effect_item_ne s (mt eq_of_writtenItem_eq_key hi))
  · exact Effect.apply_keyLen s (effect_item_ne s (mt eq_of_writtenItem_eq_keyLen hi))
  · have hitem := effect_item_ne s (mt eq_of_writtenItem_eq_schedule hi)
    exact ⟨Effect.apply_ksb s hitem, Effect.apply_nk s hitem⟩
  · exact Effect.apply_res s (effect_item_ne s (mt mem_of_writtenItem_eq_res hi))

/-! The r columns of the access matrix (rule R35): a command outside the column has the same effect, and one effect
carries a change of the item into nothing else. -/

theorem effect_setBlk (i : Instr) (s : State) (v : Block)
    (h : instrOpcode i ∉ [Opcode.blkrd, .subbytes, .invsubbytes, .shiftrows, .invshiftrows, .mixcolumns, .invmixcolumns,
      .addroundkey, .encblk, .decblk]) : effect i (s.setBlk v) = effect i s := by
  cases i
  case blkrd | subbytes | invsubbytes | shiftrows | invshiftrows | mixcolumns | invmixcolumns | addroundkey | encblk
    | decblk => simp [instrOpcode] at h
  all_goals rfl

theorem effect_setKey (i : Instr) (s : State) (v : KeyBuffer) (h : instrOpcode i ≠ .kexp) :
    effect i (s.setKey v) = effect i s := by
  cases i
  case kexp => exact absurd rfl h
  all_goals rfl

theorem effect_setKeyLen (i : Instr) (s : State) (v : Byte) (h : instrOpcode i ≠ .kexp) :
    effect i (s.setKeyLen v) = effect i s := by
  cases i
  case kexp => exact absurd rfl h
  all_goals rfl

theorem effect_setKsb (i : Instr) (s : State) (v : ScheduleStore)
    (h : instrOpcode i ∉ [Opcode.ksrd, .addroundkey, .encblk, .decblk]) : effect i (s.setKsb v) = effect i s := by
  cases i
  case ksrd | addroundkey | encblk | decblk => simp [instrOpcode] at h
  all_goals rfl

theorem effect_setNk (i : Instr) (s : State) (v : Option KeySize)
    (h : instrOpcode i ∉ [Opcode.ksrd, .addroundkey, .encblk, .decblk]) : effect i (s.setNk v) = effect i s := by
  cases i
  case ksrd | addroundkey | encblk | decblk => simp [instrOpcode] at h
  all_goals rfl

theorem effect_setRes (i : Instr) (s : State) (v : Byte) : effect i (s.setRes v) = effect i s := by
  cases i <;> rfl

theorem effect_setStatus (i : Instr) (s : State) (v : StatusCode) : effect i (s.setStatus v) = effect i s := by
  cases i <;> rfl

theorem Effect.apply_setBlk (e : Effect) (s : State) (v : Block) :
    e.apply (s.setBlk v) = (e.apply s).setBlk (e.apply (s.setBlk v)).blk := by
  cases e <;> rfl

theorem Effect.apply_setKey (e : Effect) (s : State) (v : KeyBuffer) :
    e.apply (s.setKey v) = (e.apply s).setKey (e.apply (s.setKey v)).key := by
  cases e <;> rfl

theorem Effect.apply_setKeyLen (e : Effect) (s : State) (v : Byte) :
    e.apply (s.setKeyLen v) = (e.apply s).setKeyLen (e.apply (s.setKeyLen v)).keyLen := by
  cases e <;> rfl

theorem Effect.apply_setKsb (e : Effect) (s : State) (v : ScheduleStore) :
    e.apply (s.setKsb v) = (e.apply s).setKsb (e.apply (s.setKsb v)).ksb := by
  cases e <;> rfl

theorem Effect.apply_setNk (e : Effect) (s : State) (v : Option KeySize) :
    e.apply (s.setNk v) = (e.apply s).setNk (e.apply (s.setNk v)).nk := by
  cases e <;> rfl

theorem Effect.apply_setRes (e : Effect) (s : State) (v : Byte) :
    e.apply (s.setRes v) = (e.apply s).setRes (e.apply (s.setRes v)).res := by
  cases e <;> rfl

/-- Every effect writes STATUS. -/
theorem Effect.apply_setStatus (e : Effect) (s : State) (v : StatusCode) : e.apply (s.setStatus v) = e.apply s := by
  cases e <;> rfl

/-- A command whose effect a change of the state does not alter answers what that effect makes of the changed state. -/
theorem exec_eq_of_effect_eq {i : Instr} {s s' t : State} (heffect : effect i s' = effect i s)
    (hs' : (effect i s).apply s' = t) : exec i s' = .next t := by
  rw [exec_eq_next_apply, heffect, hs']

/-- Settles O48, column by column. -/
theorem eachItemIsReadOnlyByItsCommands : Obligations.EachItemIsReadOnlyByItsCommands := by
  refine ⟨fun i s v h => ?_, fun i s v h => ?_, fun i s v h => ?_, fun i s v h => ?_, fun i s v h => ?_,
    fun i s v => ?_⟩
  · exact ⟨_, _, exec_eq_next_apply i s, exec_eq_of_effect_eq (effect_setBlk i s v h) (Effect.apply_setBlk _ s v)⟩
  · exact ⟨_, _, exec_eq_next_apply i s, exec_eq_of_effect_eq (effect_setKey i s v h) (Effect.apply_setKey _ s v)⟩
  · exact ⟨_, _, exec_eq_next_apply i s, exec_eq_of_effect_eq (effect_setKeyLen i s v h) (Effect.apply_setKeyLen _ s v)⟩
  · exact ⟨_, _, exec_eq_next_apply i s, exec_eq_of_effect_eq (effect_setKsb i s v h) (Effect.apply_setKsb _ s v)⟩
  · exact ⟨_, _, exec_eq_next_apply i s, exec_eq_of_effect_eq (effect_setNk i s v h) (Effect.apply_setNk _ s v)⟩
  · exact ⟨_, _, exec_eq_next_apply i s, exec_eq_of_effect_eq (effect_setRes i s v) (Effect.apply_setRes _ s v)⟩

/-- Settles O46: no effect depends on STATUS, and every effect writes it. -/
theorem statusNeverAltersACommand : Obligations.StatusNeverAltersACommand := by
  intro i s v
  rw [exec_eq_next_apply i s]
  exact exec_eq_of_effect_eq (effect_setStatus i s v) (Effect.apply_setStatus _ s v)

/-! Reset (rule R34). -/

/-- Settles O9: a reset event is `applyReset` on the state from which it has been taken. -/
theorem resetEventLeavesTheResetState : Obligations.ResetEventLeavesTheResetState := by
  intro s d rest hhost
  have hstep : step s = .next (applyReset d (s.setHost rest)) := step_of_host_cons hhost
  refine ⟨hstep, fun t ht => ?_⟩
  obtain rfl := Host.Outcome.next.inj (hstep.symm.trans ht)
  exact ⟨rfl, rfl, rfl, rfl, rfl, rfl, rfl, rfl⟩

/-- Settles O10, by the fields of `State.reset`. -/
theorem startStateHasTheGivenResetValues : Obligations.StartStateHasTheGivenResetValues :=
  ⟨rfl, rfl, rfl, rfl⟩

/-- Settles O53: STATUS is `OK` and there is no schedule. -/
theorem invariantsHoldAtReset : Obligations.InvariantsHoldAtReset :=
  ⟨⟨statusLegal_of_status_eq_ok rfl, scheduleSound_of_nk_eq_none rfl⟩, fun d s =>
    ⟨statusLegal_of_status_eq_ok (applyReset_status d s), scheduleSound_of_nk_eq_none (applyReset_nk d s)⟩⟩

end Sys2Proof.Machine
end

section
/-! SUPPORT. An instruction is read back from its word (30_encoding.md rules R70, R72, R73, R77). -/

namespace Sys2Proof

/-- A word has the opcode byte of its instruction's row (rule R71). -/
theorem fieldOp_encode (i : Instr) : fieldOp (encode i) = opcodeByte (instrOpcode i) := by
  cases i
  case kexp imm16 => exact fieldOp_packImm _ imm16
  all_goals exact fieldOp_packBytes ..

/-- The word of an instruction has the fixed bits of its row, one law for each format. -/
theorem encode_matches_row (i : Instr) :
    encode i &&& formatMask (opcodeFormat (instrOpcode i)) = opcodePattern (instrOpcode i) := by
  cases i
  case gfadd | gfsub | gfmul | keywr | blkwr => exact Laws.MatchesRow.format_ab ..
  case sub | isub | setklen | ksrd | blkrd | addroundkey => exact Laws.MatchesRow.format_a ..
  case kexp => exact Laws.MatchesRow.format_i ..
  all_goals exact Laws.MatchesRow.format_n _

/-- No operand loses a bit in its field (rule R73). -/
theorem instrOf_fields_encode (i : Instr) :
    instrOf (instrOpcode i) (fieldA (encode i)) (fieldB (encode i)) (fieldImm16 (encode i)) = i := by
  cases i <;> simp [instrOpcode, instrOf, encode]

/-- The decoder undoes the encoder: it selects the row, finds the fixed bits and takes the operands. -/
theorem decode_encode (i : Instr) : decode (encode i) = .ok i := by
  simp only [decode, fieldOp_encode, opcodeOf_opcodeByte, if_pos (encode_matches_row i), instrOf_fields_encode]

end Sys2Proof
end

section
/-! SUPPORT. A run of instructions by their effects (70_reset_and_hazards.md rules R202, R203): the state it leaves,
what the host observes, and that it keeps the schedule when no command of it builds one. -/

namespace Sys2Proof.Machine

/-- The state an instruction leaves. -/
def afterInstr (s : State) (i : Instr) : State := (effect i s).apply s

/-- The state a run of instructions leaves. -/
def afterInstrs (is : List Instr) (s : State) : State := is.foldl afterInstr s

/-- What the host observes in a run, after each instruction. -/
def observations : List Instr → State → List Observation
  | [], _ => []
  | i :: is, s => observe (afterInstr s i) :: observations is (afterInstr s i)

@[simp] theorem afterInstrs_nil (s : State) : afterInstrs [] s = s := rfl

@[simp] theorem afterInstrs_cons (i : Instr) (is : List Instr) (s : State) :
    afterInstrs (i :: is) s = afterInstrs is (afterInstr s i) := rfl

theorem afterInstrs_append (is js : List Instr) (s : State) :
    afterInstrs (is ++ js) s = afterInstrs js (afterInstrs is s) := by
  simp [afterInstrs]

/-- The word of an instruction is taken, decoded and executed; the host's later events stay. -/
theorem issueWord_encode (i : Instr) (s : State) : issueWord (encode i) s = .next (afterInstr s i) := by
  calc issueWord (encode i) s
    _ = runCommand (encode i) s := step_of_host_cons (s := presentEvent (.command (encode i)) s) rfl
    _ = exec i s := runCommand_of_decode_ok s (decode_encode i)
    _ = .next (afterInstr s i) := exec_eq_next_apply i s

theorem runInstrs_cons (i : Instr) (is : List Instr) (s : State) :
    runInstrs (i :: is) s = andThen (runInstrs is (afterInstr s i)) fun p =>
      .next (p.1, observe (afterInstr s i) :: p.2) := by
  simp only [runInstrs, List.map_cons, runWords, issueWord_encode, andThen]

/-- Every run of instructions ends. -/
theorem runInstrs_eq_next (is : List Instr) (s : State) :
    runInstrs is s = .next (afterInstrs is s, observations is s) := by
  induction is generalizing s with
  | nil => rfl
  | cons i is ih => rw [runInstrs_cons, ih]; rfl

/-- A command other than KEXP keeps the schedule (rule R35). -/
theorem afterInstr_schedule {i : Instr} (s : State) (h : writtenItem (instrOpcode i) ≠ .schedule) :
    (afterInstr s i).nk = s.nk ∧ (afterInstr s i).ksb = s.ksb :=
  ⟨Effect.apply_nk s (effect_item_ne s h), Effect.apply_ksb s (effect_item_ne s h)⟩

/-- A run without KEXP keeps the schedule (rule R176). -/
theorem afterInstrs_schedule {is : List Instr} (s : State)
    (h : ∀ i ∈ is, writtenItem (instrOpcode i) ≠ .schedule) :
    (afterInstrs is s).nk = s.nk ∧ (afterInstrs is s).ksb = s.ksb := by
  induction is generalizing s with
  | nil => exact ⟨rfl, rfl⟩
  | cons i is ih =>
    obtain ⟨hi, his⟩ := List.forall_mem_cons.mp h
    obtain ⟨hnk, hksb⟩ := afterInstr_schedule s hi
    obtain ⟨hnk', hksb'⟩ := ih (afterInstr s i) his
    exact ⟨hnk'.trans hnk, hksb'.trans hksb⟩

end Sys2Proof.Machine
end

section
/-! The memory family (20_memory.md): a byte of BLK read back, and a chunk of a buffer on one core or another. A chunk
is the run of 16 BLKWR, one cipher command and 16 BLKRD; the bytes it gives are the cipher's of the chunk's block. -/

namespace Sys2Proof.Machine

/-! One byte of BLK (rules R55, R58). -/

theorem effect_blkwr {idx : Byte} {i : Fin 16} (h : idx.toNat = i.val) (val : Byte) (s : State) :
    effect (.blkwr idx val) s = .blockByte i val := by
  simp only [effect, blkIndex?_eq_some.mpr h, Effect.atIndex]

theorem effect_blkrd {idx : Byte} {i : Fin 16} (h : idx.toNat = i.val) (s : State) :
    effect (.blkrd idx) s = .result (readBlk s i) := by
  simp only [effect, blkIndex?_eq_some.mpr h, Effect.atIndex]

/-- A read after a write gives the byte written at its index, and the byte of before at another. -/
theorem readBlk_apply_blockByte (i j : Fin 16) (v : Byte) (s : State) :
    readBlk ((Effect.blockByte i v).apply s) j = if i = j then v else readBlk s j := by
  simp only [Fin.ext_iff]
  exact Vector.getElem_set i.isLt j.isLt

/-- Settles O18: the reads give RES the byte `readBlk_apply_blockByte` says. -/
theorem blkrdReturnsTheLatestWrite : Obligations.BlkrdReturnsTheLatestWrite := by
  intro s idx val other hidx hother
  obtain ⟨i, hi⟩ : ∃ i : Fin 16, idx.toNat = i.val := ⟨⟨idx.toNat, by omega⟩, rfl⟩
  obtain ⟨j, hj⟩ : ∃ j : Fin 16, other.toNat = j.val := ⟨⟨other.toNat, by omega⟩, rfl⟩
  refine ⟨_, _, _, _, exec_eq_next_apply _ _, exec_eq_next_apply _ _, ?_, exec_eq_next_apply _ _,
    exec_eq_next_apply _ _, fun hne => ?_⟩
  · rw [effect_blkwr hi, effect_blkrd hi]
    exact (readBlk_apply_blockByte i i val s).trans (if_pos rfl)
  · have hij : i ≠ j := fun h => hne (BitVec.eq_of_toNat_eq (by rw [hi, hj, h]))
    rw [effect_blkwr hi, effect_blkrd hj, effect_blkrd hj]
    exact (readBlk_apply_blockByte i j val s).trans (if_neg hij)

/-! Loading a chunk (rule R172). -/

/-- The block of chunk `j` of a buffer. -/
def chunkBlock (buffer : List Byte) (j : Nat) : Block := Vector.ofFn fun m => chunkByte buffer j m.val

theorem chunkBlock_congr {b c : List Byte} {i j : Nat} (h : ∀ m < 16, chunkByte b i m = chunkByte c j m) :
    chunkBlock b i = chunkBlock c j :=
  congrArg Vector.ofFn (funext fun m => h m.val m.isLt)

/-- BLKWR of one byte of chunk `j`, its index a `Fin 16`. -/
def loadByteInstr (buffer : List Byte) (j : Nat) (m : Fin 16) : Instr :=
  .blkwr (BitVec.ofNat 8 m.val) (chunkByte buffer j m.val)

/-- BLKRD of one byte, its index a `Fin 16`. -/
def readByteInstr (m : Fin 16) : Instr := .blkrd (BitVec.ofNat 8 m.val)

theorem loadBlockInstrs_eq (buffer : List Byte) (j : Nat) :
    loadBlockInstrs buffer j = (List.finRange 16).map (loadByteInstr buffer j) := by
  rw [loadBlockInstrs, ← List.map_coe_finRange_eq_range, List.map_map]
  rfl

theorem readBlockInstrs_eq : readBlockInstrs = (List.finRange 16).map readByteInstr := by
  rw [readBlockInstrs, ← List.map_coe_finRange_eq_range, List.map_map]
  rfl

/-- An index of BLK fits its operand field. -/
theorem toNat_ofNat_blkIndex (m : Fin 16) : (BitVec.ofNat 8 m.val).toNat = m.val := by
  simp only [BitVec.toNat_ofNat]
  omega

theorem afterInstr_loadByteInstr (buffer : List Byte) (j : Nat) (m : Fin 16) (s : State) :
    afterInstr s (loadByteInstr buffer j m) = (Effect.blockByte m (chunkByte buffer j m.val)).apply s := by
  rw [afterInstr, loadByteInstr, effect_blkwr (toNat_ofNat_blkIndex m)]

theorem afterInstr_readByteInstr (m : Fin 16) (s : State) :
    afterInstr s (readByteInstr m) = (Effect.result (readBlk s m)).apply s := by
  rw [afterInstr, readByteInstr, effect_blkrd (toNat_ofNat_blkIndex m)]

/-- Loading some bytes of a chunk writes those and no others. -/
theorem readBlk_afterInstrs_load (buffer : List Byte) (j : Nat) (ms : List (Fin 16)) (s : State) (n : Fin 16) :
    readBlk (afterInstrs (ms.map (loadByteInstr buffer j)) s) n =
      if n ∈ ms then chunkByte buffer j n.val else readBlk s n := by
  induction ms generalizing s with
  | nil => rfl
  | cons m ms ih =>
    rw [List.map_cons, afterInstrs_cons, ih, afterInstr_loadByteInstr, readBlk_apply_blockByte]
    by_cases hn : n ∈ ms
    · simp [hn]
    · by_cases hm : m = n
      · simp [hm]
      · simp [hn, hm, Ne.symm hm]

/-- Loading a chunk leaves its block in BLK, whatever BLK held. -/
theorem afterInstrs_loadBlockInstrs_blk (buffer : List Byte) (j : Nat) (s : State) :
    (afterInstrs (loadBlockInstrs buffer j) s).blk = chunkBlock buffer j := by
  apply Vector.ext
  intro n hn
  rw [loadBlockInstrs_eq, chunkBlock, Vector.getElem_ofFn]
  exact (readBlk_afterInstrs_load buffer j _ s ⟨n, hn⟩).trans (if_pos (List.mem_finRange _))

/-- Loading a chunk keeps the schedule. -/
theorem afterInstrs_loadBlockInstrs_schedule (buffer : List Byte) (j : Nat) (s : State) :
    (afterInstrs (loadBlockInstrs buffer j) s).nk = s.nk ∧
      (afterInstrs (loadBlockInstrs buffer j) s).ksb = s.ksb := by
  refine afterInstrs_schedule s fun i hi => ?_
  obtain ⟨m, -, rfl⟩ := List.mem_map.mp hi
  exact Item.noConfusion

/-! Reading the block (rule R78). -/

/-- Reading some bytes of BLK shows those bytes in RES, one after the other: a read does not disturb BLK. -/
theorem observations_read_res (ms : List (Fin 16)) (s : State) :
    (observations (ms.map readByteInstr) s).map Observation.res = ms.map (readBlk s) := by
  induction ms generalizing s with
  | nil => rfl
  | cons m ms ih =>
    rw [List.map_cons, observations, List.map_cons, ih, afterInstr_readByteInstr]
    rfl

/-- Reading the block shows its 16 bytes in order. -/
theorem observations_readBlockInstrs_res (s : State) :
    (observations readBlockInstrs s).map Observation.res = s.blk.toList := by
  rw [readBlockInstrs_eq, observations_read_res, ← List.ofFn_eq_map, ← Vector.toList_ofFn]
  exact congrArg Vector.toList Vector.ofFn_getElem

/-! A chunk (rules R63, R172 to R176). -/

section
variable {command : Instr} {f : KeySize → ScheduleStore → Block → Block}
  (heffect : ∀ s, effect command s = .underSchedule s.nk fun k => .block (f k s.ksb s.blk))
include heffect

/-- With a schedule, loading a chunk and running a cipher command leaves the cipher of the chunk's block in BLK and
STATUS `OK`. -/
theorem afterInstrs_load_append_command {s : State} {k : KeySize} (hs : s.nk = some k) (buffer : List Byte) (j : Nat) :
    (afterInstrs (loadBlockInstrs buffer j ++ [command]) s).blk = f k s.ksb (chunkBlock buffer j) ∧
      (afterInstrs (loadBlockInstrs buffer j ++ [command]) s).status = statusOk := by
  obtain ⟨hnk, hksb⟩ := afterInstrs_loadBlockInstrs_schedule buffer j s
  rw [afterInstrs_append, afterInstrs_cons, afterInstrs_nil, afterInstr, heffect, hnk, hs, hksb,
    afterInstrs_loadBlockInstrs_blk]
  exact ⟨rfl, rfl⟩

/-- With a schedule, a chunk succeeds and gives the cipher of its block. -/
theorem processChunk_eq_next {s : State} {k : KeySize} (hs : s.nk = some k) (buffer : List Byte) (j : Nat) :
    processChunk command buffer j s =
      .next (afterInstrs (loadBlockInstrs buffer j ++ [command] ++ readBlockInstrs) s,
        .ok (f k s.ksb (chunkBlock buffer j)).toList) := by
  obtain ⟨hblk, hstatus⟩ := afterInstrs_load_append_command heffect hs buffer j
  simp only [processChunk, runInstrs_eq_next, andThen, if_pos hstatus, observations_readBlockInstrs_res, hblk,
    ← afterInstrs_append]

/-- A cipher that answers one block under two schedules answers equal chunks with equal bytes under them. -/
theorem processChunk_congr {s t : State} {k : KeySize} (hs : s.nk = some k) (ht : t.nk = some k)
    (hcipher : ∀ S, f k s.ksb S = f k t.ksb S) {b c : List Byte} {i j : Nat}
    (hchunk : ∀ m < 16, chunkByte b i m = chunkByte c j m) :
    ∃ u v out, processChunk command b i s = .next (u, .ok out) ∧ processChunk command c j t = .next (v, .ok out) ∧
      out.length = 16 := by
  have hu := processChunk_eq_next heffect hs b i
  have hv := processChunk_eq_next heffect ht c j
  rw [← hcipher, ← chunkBlock_congr hchunk] at hv
  exact ⟨_, _, _, hu, hv, Vector.length_toList⟩

end

/-- Settles O59: a chunk gives the cipher of its block, and both ciphers read the schedule alone. -/
theorem chunksAreProcessedIndependently : Obligations.ChunksAreProcessedIndependently := by
  rintro command b c i j s t k (rfl | rfl) hs ht hks hchunk
  · exact processChunk_congr (f := cipher) (fun _ => rfl) hs ht (cipher_congr hks) hchunk
  · exact processChunk_congr (f := invCipher) (fun _ => rfl) hs ht (invCipher_congr hks) hchunk

end Sys2Proof.Machine
end

section
/-! SUPPORT. A word is its fixed bits and its operand bits (30_encoding.md rules R71 to R73): the decoder and the
encoder invert each other because they agree on which bits are which. -/

namespace Sys2Proof

/-! The operand fields of a word stand at their places. -/

/-- A field put back at its place is the word masked to it (rule R71). -/
theorem extract_shiftLeft_eq_and (cw : CommandWord) (start len : Nat) :
    (cw.extractLsb' start len).setWidth 32 <<< start = cw &&& (BitVec.allOnes len).setWidth 32 <<< start := by
  apply BitVec.eq_of_getLsbD_eq
  intro i hi
  by_cases hstart : i < start
  · simp [hstart]
  · simp [hi, show start + (i - start) = i by omega, hstart, Bool.and_comm]

/-- The words of the formats: absent operands are 0 (rules R72, R77). -/
def packOperands (f : Format) (op a b : Byte) (imm16 : BitVec 16) : CommandWord :=
  match f with
  | .n => packBytes op 0 0
  | .a => packBytes op a 0
  | .ab => packBytes op a b
  | .i => packImm op imm16

/-- The encoder packs the operands of the row's format. -/
theorem encode_instrOf (op : Opcode) (a b : Byte) (imm16 : BitVec 16) :
    encode (instrOf op a b imm16) = packOperands (opcodeFormat op) (opcodeByte op) a b imm16 := by
  cases op <;> rfl

@[simp] theorem instrOpcode_instrOf (op : Opcode) (a b : Byte) (imm16 : BitVec 16) :
    instrOpcode (instrOf op a b imm16) = op := by
  cases op <;> rfl

/-- The fields of a word packed again: the row's fixed bits, and the word's own bits everywhere else. -/
theorem packOperands_fields (f : Format) (op : Opcode) (cw : CommandWord) :
    packOperands f (opcodeByte op) (fieldA cw) (fieldB cw) (fieldImm16 cw) =
      opcodePattern op ||| (cw &&& ~~~formatMask f) := by
  have ha : (fieldA cw).setWidth 32 <<< 16 = cw &&& 0x00FF0000 := extract_shiftLeft_eq_and cw 16 8
  have hb : (fieldB cw).setWidth 32 <<< 8 = cw &&& 0x0000FF00 := extract_shiftLeft_eq_and cw 8 8
  have himm : (fieldImm16 cw).setWidth 32 = cw &&& 0x0000FFFF := by
    simpa [fieldImm16] using extract_shiftLeft_eq_and cw 0 16
  cases f <;> simp only [packOperands, formatMask, packBytes_eq_or, packImm_eq_or, ha, hb, himm, opcodePattern]
  case n => simp
  case a => simp
  case ab => rw [BitVec.or_assoc, ← BitVec.and_or_distrib_left]; rfl
  case i => rfl

/-! The decoder is the inverse of the encoder. -/

/-- A word with a row's fixed bits is the word of that row's instruction on the word's own fields (rule R72). -/
theorem encode_instrOf_fields {op : Opcode} {cw : CommandWord}
    (h : cw &&& formatMask (opcodeFormat op) = opcodePattern op) :
    encode (instrOf op (fieldA cw) (fieldB cw) (fieldImm16 cw)) = cw := by
  rw [encode_instrOf, packOperands_fields, ← h, ← BitVec.and_or_distrib_left, BitVec.or_not_self,
    BitVec.and_allOnes]

/-- A word that decodes is the word of the instruction: the decoder has found the fixed bits of the row. -/
theorem encode_of_decode_eq_ok {cw : CommandWord} {i : Instr} (h : decode cw = .ok i) : encode i = cw := by
  unfold decode at h
  split at h
  case h_1 => cases h
  case h_2 op _ =>
    split at h
    case isTrue hmatch => exact Except.ok.inj h ▸ encode_instrOf_fields hmatch
    case isFalse => cases h

/-- A word decodes to an instruction exactly when it is that instruction's word. -/
theorem decode_eq_ok_iff {cw : CommandWord} {i : Instr} : decode cw = .ok i ↔ encode i = cw :=
  ⟨encode_of_decode_eq_ok, fun h => h ▸ decode_encode i⟩

/-- A word has a row's fixed bits exactly when it is the word of one of the row's instructions (rule R72). -/
theorem matches_row_iff (op : Opcode) (cw : CommandWord) :
    cw &&& formatMask (opcodeFormat op) = opcodePattern op ↔ ∃ i, encode i = cw ∧ instrOpcode i = op := by
  constructor
  · intro h
    exact ⟨_, encode_instrOf_fields h, instrOpcode_instrOf ..⟩
  · rintro ⟨i, rfl, rfl⟩
    exact encode_matches_row i

/-! The words as the spec spells them (rules R77, R78). -/

/-- A word of format N, A or AB is the row's fixed bits with the operands at their places. -/
theorem packBytes_eq_spelledWord (op : Opcode) (a b : Byte) :
    packBytes (opcodeByte op) a b = Machine.spelledWord (opcodePattern op) a b :=
  packBytes_eq_or ..

theorem encode_keywr (idx val : Byte) : encode (.keywr idx val) = Machine.spelledWord 0x10000000 idx val :=
  packBytes_eq_spelledWord .keywr idx val

theorem encode_setklen (n : Byte) : encode (.setklen n) = Machine.spelledWord 0x11000000 n 0 :=
  packBytes_eq_spelledWord .setklen n 0

theorem encode_blkwr (idx val : Byte) : encode (.blkwr idx val) = Machine.spelledWord 0x20000000 idx val :=
  packBytes_eq_spelledWord .blkwr idx val

theorem encode_blkrd (idx : Byte) : encode (.blkrd idx) = Machine.spelledWord 0x21000000 idx 0 :=
  packBytes_eq_spelledWord .blkrd idx 0

end Sys2Proof
end

section
/-! The encoding family (30_encoding.md): the decoder and the encoder, the rows of the opcode map, the assembler, and
the step on a word that is no command. -/

namespace Sys2Proof.Machine

/-! Decoding (rules R70 to R75). -/

/-- Settles O1: the word of an instruction matches its row and holds its operands. -/
theorem decodeOfEncodeIsInstruction : Obligations.DecodeOfEncodeIsInstruction :=
  decode_encode

/-- Settles O2: the fixed bits of a word that decodes are those of its row, and the encoder puts every other bit
back. -/
theorem decodedWordIsItsOwnEncoding : Obligations.DecodedWordIsItsOwnEncoding :=
  fun _ _ => encode_of_decode_eq_ok

/-- The row the decoder uses for an opcode. -/
def decoderRow (op : Opcode) : TableRow := ⟨op, opcodePattern op, formatMask (opcodeFormat op)⟩

/-- The printed opcode map is the decoder's own (rule R74). -/
theorem specTable_eq_map_decoderRow : specTable = opcodeTable.map decoderRow := by decide

theorem mem_opcodeTable (op : Opcode) : op ∈ opcodeTable := by
  cases op <;> decide

theorem decoderRow_mem_specTable (op : Opcode) : decoderRow op ∈ specTable :=
  specTable_eq_map_decoderRow ▸ List.mem_map_of_mem (mem_opcodeTable op)

/-- A row of the printed map is the decoder's row for its opcode. -/
theorem decoderRow_of_mem_specTable {r : TableRow} (h : r ∈ specTable) : decoderRow r.op = r := by
  rw [specTable_eq_map_decoderRow] at h
  obtain ⟨op, -, rfl⟩ := List.mem_map.mp h
  rfl

/-- A word matches a printed row exactly when it decodes to an instruction of that row (rule R72). -/
theorem matches_iff_decode {r : TableRow} (hr : r ∈ specTable) (cw : CommandWord) :
    r.matches cw ↔ ∃ i, decode cw = .ok i ∧ instrOpcode i = r.op := by
  calc r.matches cw
    _ ↔ (decoderRow r.op).matches cw := by rw [decoderRow_of_mem_specTable hr]
    _ ↔ ∃ i, encode i = cw ∧ instrOpcode i = r.op := matches_row_iff r.op cw
    _ ↔ ∃ i, decode cw = .ok i ∧ instrOpcode i = r.op := by simp only [decode_eq_ok_iff]

/-- Settles O3: a word matches a row exactly when it decodes to an instruction of it, and it decodes to one
instruction only. -/
theorem decodeAcceptsExactlyTheTableRows : Obligations.DecodeAcceptsExactlyTheTableRows := by
  refine ⟨fun r hr cw => (matches_iff_decode hr cw).symm,
    fun cw i _ => ⟨_, decoderRow_mem_specTable _, rfl⟩, ?_⟩
  intro r hr q hq cw hrcw hqcw
  obtain ⟨i, hi, hir⟩ := (matches_iff_decode hr cw).mp hrcw
  obtain ⟨j, hj, hjq⟩ := (matches_iff_decode hq cw).mp hqcw
  obtain rfl : i = j := Except.ok.inj (hi.symm.trans hj)
  rw [← decoderRow_of_mem_specTable hr, ← decoderRow_of_mem_specTable hq, ← hir, ← hjq]

/-- Settles O4: each word is the word of its command. -/
theorem sampleWordsDecodeToTheirCommands : Obligations.SampleWordsDecodeToTheirCommands := by
  simp only [Obligations.SampleWordsDecodeToTheirCommands, decode_eq_ok_iff]
  decide

/-! The assembler (rules R77, R78). -/

theorem assembleLine_of_wellFormed {line : AsmLine} (h : line.wellFormed = true) :
    assembleLine line = some ((expandLine line).map encode) :=
  if_pos h

theorem assembleLine_eq_none {line : AsmLine} (h : line.wellFormed = false) : assembleLine line = none := by
  simp [assembleLine, h]

/-- A command line whose operands fit its format is one word. -/
theorem assembleLine_command {op : Opcode} {f : Format} {operands : List Nat} (hf : opcodeFormat op = f)
    (hfit : operandsFit f operands = true) :
    assembleLine (.command op operands) =
      some [packOperands f (opcodeByte op) (BitVec.ofNat 8 (operands.getD 0 0)) (BitVec.ofNat 8 (operands.getD 1 0))
        (BitVec.ofNat 16 (operands.getD 0 0))] := by
  subst hf
  rw [assembleLine_of_wellFormed (line := .command op operands) hfit, expandLine, List.map_singleton,
    instrOfOperands, encode_instrOf]

/-- A command line whose operands do not fit its format is rejected. -/
theorem assembleLine_command_eq_none {op : Opcode} {f : Format} {operands : List Nat} (hf : opcodeFormat op = f)
    (hfit : operandsFit f operands = false) : assembleLine (.command op operands) = none := by
  subst hf
  exact assembleLine_eq_none hfit

/-- An operand that fits its byte is the same number in a word. -/
theorem setWidth_ofNat_byte {a : Nat} (h : a ≤ 255) : (BitVec.ofNat 8 a).setWidth 32 = BitVec.ofNat 32 a :=
  BitVec.setWidth_ofNat_of_le_of_lt (by decide) (by omega)

/-- Settles O5, format by format: operands that fit are packed with no bit lost, one that does not fit fails the
check. -/
theorem assemblerEncodesAndRejectsByRule : Obligations.AssemblerEncodesAndRejectsByRule := by
  refine ⟨?ab, ?a, ?n, ?i, ?abReject, ?aReject, ?iReject⟩
  case ab =>
    intro op a b hf ha hb
    rw [assembleLine_command hf (by simp [operandsFit, ha, hb])]
    simp [packOperands, packBytes_eq_or, setWidth_ofNat_byte, ha, hb]
  case a =>
    intro op a hf ha
    rw [assembleLine_command hf (by simp [operandsFit, ha])]
    simp [packOperands, packBytes_eq_or, setWidth_ofNat_byte, ha]
  case n =>
    intro op hf
    rw [assembleLine_command hf rfl]
    simp [packOperands, packBytes_eq_or]
  case i =>
    intro op imm16 hf himm
    have hwidth : (BitVec.ofNat 16 imm16).setWidth 32 = BitVec.ofNat 32 imm16 :=
      BitVec.setWidth_ofNat_of_le_of_lt (by decide) (by omega)
    rw [assembleLine_command hf (by simp [operandsFit, himm])]
    simp [packOperands, packImm_eq_or, hwidth]
  case abReject =>
    intro op a b hf hover
    exact assembleLine_command_eq_none hf (by
      simp only [operandsFit, Bool.and_eq_false_iff, decide_eq_false_iff_not]
      omega)
  case aReject =>
    intro op a hf hover
    exact assembleLine_command_eq_none hf (by simp [operandsFit, hover])
  case iReject =>
    intro op imm16 hf hover
    exact assembleLine_command_eq_none hf (by simp [operandsFit, hover])

/-- Settles O6: the words of the expansion, read at each index. -/
theorem pseudoInstructionsExpandInOrder : Obligations.PseudoInstructionsExpandInOrder := by
  refine ⟨?ldkey, ?ldblk, ?rdblk, ?ldkeyReject, ?ldblkReject⟩
  case ldkey =>
    intro h hlen
    refine ⟨_, assembleLine_of_wellFormed (by simp [AsmLine.wellFormed, hlen]), by simp [expandLine], ?_, ?_⟩
    · intro i hi
      simp [expandLine, List.getElem?_append, hi, encode_keywr]
    · simp [expandLine, encode_setklen]
  case ldblk =>
    intro h hlen
    refine ⟨_, assembleLine_of_wellFormed (by simp [AsmLine.wellFormed, hlen]), by simp [expandLine, hlen], ?_⟩
    intro i hi
    simp [expandLine, hi, encode_blkwr]
  case rdblk =>
    refine ⟨_, assembleLine_of_wellFormed rfl, by simp [expandLine], ?_⟩
    intro i hi
    simp [expandLine, hi, encode_blkrd]
  case ldkeyReject =>
    intro h hlen
    exact assembleLine_eq_none (by simp [AsmLine.wellFormed, hlen])
  case ldblkReject =>
    intro h hlen
    exact assembleLine_eq_none (by simp [AsmLine.wellFormed, hlen])

/-! The step (rules R75, R185, R202). -/

/-- A word that matches no row does not decode. -/
theorem decode_eq_error_of_forall_not_matches {cw : CommandWord} (h : ∀ r ∈ specTable, ¬ r.matches cw) :
    ∃ e, decode cw = .error e := by
  cases hcw : decode cw with
  | error e => exact ⟨e, rfl⟩
  | ok i =>
    have hrow := decoderRow_mem_specTable (instrOpcode i)
    exact absurd ((matches_iff_decode hrow cw).mpr ⟨i, hcw, rfl⟩) (h _ hrow)

/-- Settles O8: the step takes the word, and the word does not decode. -/
theorem illegalWordChangesOnlyStatus : Obligations.IllegalWordChangesOnlyStatus := by
  intro s cw rest hhost hcw
  obtain ⟨e, he⟩ := decode_eq_error_of_forall_not_matches hcw
  calc step s
    _ = runCommand cw (s.setHost rest) := step_of_host_cons hhost
    _ = raise .illegalCommand (s.setHost rest) := by simp only [runCommand, he]

/-- Settles O12: the core is idle, or it does what the effect of the word says, or it is reset. -/
theorem everyStepHasANextState : Obligations.EveryStepHasANextState := by
  intro s
  match hhost : s.host with
  | [] => exact ⟨s, takeEvent_nil hhost⟩
  | .command cw :: rest =>
    exact ⟨_, (step_of_host_cons hhost).trans (runCommand_eq_next_apply cw (s.setHost rest))⟩
  | .reset d :: rest => exact ⟨_, step_of_host_cons hhost⟩

end Sys2Proof.Machine
end

section
/-! SUPPORT. The first words of an expansion are the raw key (43_key_schedule.md rule R123). -/

namespace Sys2Proof.Machine

/-- The iterations of the expansion only append. -/
theorem wordAt_foldl_expandStep_old (nk j : Nat) (is : List Nat) (w : List KeyWord) (h : j < w.length) :
    wordAt (is.foldl (expandStep nk) w) j = wordAt w j := by
  induction is generalizing w with
  | nil => rfl
  | cons i is ih =>
    have hstep : j < (expandStep nk w i).length := by rw [expandStep_length]; omega
    exact (ih _ hstep).trans (wordAt_expandStep_old nk w i j h)

theorem wordAt_keyExpansion_of_lt_nk (k : KeySize) (K : Vector Byte k.keyBytes) (i : Fin k.nk) :
    wordAt (keyExpansion k K) i.val = keyWord k K i := by
  have hi : i.val < (keyWords k K).length := by rw [keyWords_length]; exact i.isLt
  rw [keyExpansion, wordAt_foldl_expandStep_old _ _ _ _ hi]
  simp [wordAt, keyWords]

theorem wordByte_keyWord (k : KeySize) (K : Vector Byte k.keyBytes) (i : Fin k.nk) {r : Nat} (hr : r < 4) :
    wordByte (keyWord k K i) r = K[4 * i.val + r]'(by have := keyWord_index k i; omega) := by
  match r, hr with
  | 0, _ => rfl
  | 1, _ => rfl
  | 2, _ => rfl
  | 3, _ => rfl

/-- Byte `n` of an expansion is byte `n` of the raw key, as long as there is one. -/
theorem wordByte_keyExpansion_of_lt_keyBytes (k : KeySize) (K : Vector Byte k.keyBytes) {n : Nat}
    (h : n < k.keyBytes) : wordByte (wordAt (keyExpansion k K) (n / 4)) (n % 4) = K[n] := by
  have hword : n / 4 < k.nk := by unfold KeySize.keyBytes at h; omega
  rw [wordAt_keyExpansion_of_lt_nk k K ⟨n / 4, hword⟩, wordByte_keyWord k K _ (Nat.mod_lt n (by decide))]
  simp only [Nat.div_add_mod]

theorem keyBytes_le_scheduleBytes (k : KeySize) : k.keyBytes ≤ k.scheduleBytes := by
  unfold KeySize.keyBytes KeySize.scheduleBytes
  omega

/-- After KEXP the store begins with the raw key (40_data_movement.md rule R94). -/
theorem readKsb_apply_schedule (k : KeySize) (K : Vector Byte k.keyBytes) (s : State) (j : Fin 240)
    (h : j.val < k.keyBytes) : readKsb ((Effect.schedule k K).apply s) j = K[j.val] := by
  have hj : j.val < k.scheduleBytes := Nat.lt_of_lt_of_le h (keyBytes_le_scheduleBytes k)
  exact (Effect.holdsExpansion_apply_schedule k K s j hj).trans (wordByte_keyExpansion_of_lt_keyBytes k K h)

end Sys2Proof.Machine
end

section
/-! The data-movement family (40_data_movement.md): KEYWR, SETKLEN, BLKWR, BLKRD and KSRD. For each outcome of a
command one lemma gives its effect; the state it leaves is that effect applied. -/

namespace Sys2Proof

theorem encode_ksrd (idx : Byte) : encode (.ksrd idx) = Machine.spelledWord 0x13000000 idx 0 :=
  packBytes_eq_spelledWord .ksrd idx 0

end Sys2Proof

namespace Sys2Proof.Machine

theorem exec_eq_next_of_effect_eq {i : Instr} {s : State} {e : Effect} (h : effect i s = e) :
    exec i s = .next (e.apply s) :=
  h ▸ exec_eq_next_apply i s

/-- Commands executed one after the other leave what their effects say. -/
theorem execAll_eq_next (is : List Instr) (s : State) : execAll is s = .next (afterInstrs is s) := by
  induction is generalizing s with
  | nil => rfl
  | cons i is ih => rw [execAll, exec_eq_next_apply]; exact ih (afterInstr s i)

/-! Loading the key (rules R90, R91). -/

theorem effect_keywr {idx : Byte} {i : Fin 32} (h : idx.toNat = i.val) (val : Byte) (s : State) :
    effect (.keywr idx val) s = .keyByte i val := by
  simp only [effect, keyIndex?_eq_some.mpr h, Effect.atIndex]

theorem effect_keywr_of_index_gt {idx : Byte} (h : 31 < idx.toNat) (val : Byte) (s : State) :
    effect (.keywr idx val) s = .error .illegalOperand := by
  simp only [effect, keyIndex?_eq_none.mpr h, Effect.atIndex]

/-- Settles O13: the word is the encoder's, and the index is one of KEY or it is not. -/
theorem keywrWritesOneKeyByte : Obligations.KeywrWritesOneKeyByte :=
  ⟨fun idx val => decode_eq_ok_iff.mpr (encode_keywr idx val),
    fun s idx val h => exec_eq_next_of_effect_eq (effect_keywr (i := ⟨idx.toNat, Nat.lt_succ_of_le h⟩) rfl val s),
    fun s _ val h => exec_eq_next_of_effect_eq (effect_keywr_of_index_gt h val s)⟩

theorem effect_kexp_of_size_eq_none {imm16 : BitVec 16} (h : keySize? imm16 = none) (s : State) :
    effect (.kexp imm16) s = .error .invalidKeySize := by
  simp only [effect, kexpEffect, h]

theorem effect_kexp_of_keyLen_ne {imm16 : BitVec 16} {k : KeySize} {s : State} (hsize : keySize? imm16 = some k)
    (hlen : s.keyLen.toNat ≠ k.keyBytes) : effect (.kexp imm16) s = .error .invalidKeyLength := by
  simp only [effect, kexpEffect, hsize, if_neg (mt keyLengthMatches_iff.mp hlen)]

theorem keyBytes_mem (k : KeySize) : k.keyBytes ∈ [16, 24, 32] := by
  cases k <;> decide

/-- With a KEYLEN that is no key length, KEXP raises one of its two errors (rules R91, R126). -/
theorem status_afterInstr_kexp_of_keyLen_not_mem {s : State} (imm16 : BitVec 16)
    (h : s.keyLen.toNat ∉ [16, 24, 32]) : (afterInstr s (.kexp imm16)).status ∈ ([1, 2] : List StatusCode) := by
  cases hsize : keySize? imm16 with
  | none =>
    rw [afterInstr, effect_kexp_of_size_eq_none hsize]
    exact List.mem_cons_self
  | some k =>
    have hlen : s.keyLen.toNat ≠ k.keyBytes := fun heq => h (heq ▸ keyBytes_mem k)
    rw [afterInstr, effect_kexp_of_keyLen_ne hsize hlen]
    exact List.mem_cons_of_mem _ List.mem_cons_self

/-- Settles O14: SETKLEN checks nothing, and the KEXP after it finds `n` in KEYLEN. -/
theorem setklenDeclaresTheKeyLength : Obligations.SetklenDeclaresTheKeyLength :=
  ⟨fun n => decode_eq_ok_iff.mpr (encode_setklen n),
    fun s n => exec_eq_next_apply (.setklen n) s,
    fun s n imm16 hn => ⟨_, execAll_eq_next [.setklen n, .kexp imm16] s,
      status_afterInstr_kexp_of_keyLen_not_mem (s := afterInstr s (.setklen n)) imm16 hn⟩⟩

/-! The block (rules R92, R93). -/

theorem effect_blkwr_of_index_gt {idx : Byte} (h : 15 < idx.toNat) (val : Byte) (s : State) :
    effect (.blkwr idx val) s = .error .illegalOperand := by
  simp only [effect, blkIndex?_eq_none.mpr h, Effect.atIndex]

theorem effect_blkrd_of_index_gt {idx : Byte} (h : 15 < idx.toNat) (s : State) :
    effect (.blkrd idx) s = .error .illegalOperand := by
  simp only [effect, blkIndex?_eq_none.mpr h, Effect.atIndex]

/-- Settles O15: the word is the encoder's, and the index is one of BLK or it is not. -/
theorem blkwrWritesOneBlockByte : Obligations.BlkwrWritesOneBlockByte :=
  ⟨fun idx val => decode_eq_ok_iff.mpr (encode_blkwr idx val),
    fun s idx val h => exec_eq_next_of_effect_eq (effect_blkwr (i := ⟨idx.toNat, Nat.lt_succ_of_le h⟩) rfl val s),
    fun s _ val h => exec_eq_next_of_effect_eq (effect_blkwr_of_index_gt h val s)⟩

/-- Settles O16: the word is the encoder's, and the index is one of BLK or it is not. -/
theorem blkrdReadsOneBlockByte : Obligations.BlkrdReadsOneBlockByte :=
  ⟨fun idx => decode_eq_ok_iff.mpr (encode_blkrd idx),
    fun s idx h => exec_eq_next_of_effect_eq (effect_blkrd (i := ⟨idx.toNat, Nat.lt_succ_of_le h⟩) rfl s),
    fun s _ h => exec_eq_next_of_effect_eq (effect_blkrd_of_index_gt h s)⟩

/-! The schedule (rule R94). -/

theorem effect_ksrd_of_nk_eq_none {s : State} (h : s.nk = none) (idx : Byte) :
    effect (.ksrd idx) s = .error .noSchedule := by
  simp only [effect, h, Effect.underSchedule]

theorem effect_ksrd_of_scheduleBytes_le {s : State} {k : KeySize} {idx : Byte} (hk : s.nk = some k)
    (h : k.scheduleBytes ≤ idx.toNat) : effect (.ksrd idx) s = .error .illegalOperand := by
  simp only [effect, hk, Effect.underSchedule, scheduleIndex?_eq_none.mpr h, Effect.atIndex]

theorem effect_ksrd {s : State} {k : KeySize} {idx : Byte} {i : Fin 240} (hk : s.nk = some k)
    (hidx : idx.toNat = i.val) (h : i.val < k.scheduleBytes) :
    effect (.ksrd idx) s = .result (readKsb s i) := by
  simp only [effect, hk, Effect.underSchedule, scheduleIndex?_eq_some.mpr ⟨hidx, hidx.trans_lt h⟩, Effect.atIndex]

/-- KSRD after a KEXP reads a byte of the key from which the schedule was built. -/
theorem effect_ksrd_afterInstr_kexp {s : State} {imm16 : BitVec 16} {k : KeySize} {idx : Byte} {i : Fin 32}
    (hsize : imm16.toNat = k.bits) (hlen : s.keyLen.toNat = k.keyBytes) (hidx : idx.toNat = i.val)
    (hi : i.val < k.keyBytes) : effect (.ksrd idx) (afterInstr s (.kexp imm16)) = .result s.key[i] := by
  have hindex : i.val < 240 := by omega
  rw [afterInstr, effect_kexp hsize hlen,
    effect_ksrd (i := ⟨i.val, hindex⟩) (Effect.apply_schedule_nk ..) hidx
      (Nat.lt_of_lt_of_le hi (keyBytes_le_scheduleBytes k)),
    readKsb_apply_schedule k _ s ⟨i.val, hindex⟩ hi, rawKey_get]
  rfl

/-- Settles O17: the three outcomes in the order of the checks, and the read that follows a KEXP. -/
theorem ksrdReadsOneScheduleByte : Obligations.KsrdReadsOneScheduleByte := by
  refine ⟨fun idx => decode_eq_ok_iff.mpr (encode_ksrd idx),
    fun s idx h => exec_eq_next_of_effect_eq (effect_ksrd_of_nk_eq_none h idx),
    fun s idx k hk h => exec_eq_next_of_effect_eq (effect_ksrd_of_scheduleBytes_le hk ?_),
    fun s idx k i hk hidx h => exec_eq_next_of_effect_eq (effect_ksrd hk hidx ?_),
    fun s idx imm16 k i hsize hlen hidx hi => ⟨_, execAll_eq_next [.kexp imm16, .ksrd idx] s, ?_⟩⟩
  · unfold KeySize.scheduleBytes
    omega
  · unfold KeySize.scheduleBytes
    omega
  · have hkeyLen : s.keyLen.toNat = k.keyBytes := by unfold KeySize.keyBytes; omega
    have hread := effect_ksrd_afterInstr_kexp hsize hkeyLen hidx hi
    simp only [afterInstrs_cons, afterInstrs_nil, afterInstr] at hread ⊢
    rw [hread]
    exact ⟨rfl, rfl⟩

end Sys2Proof.Machine
end

section
/-! SUPPORT. The field of the GF unit (41_gf_arithmetic.md rules R100 to R103). A byte is a residue of the polynomials
over GF(2) modulo the reduction polynomial; different bytes are different residues, and `gadd`, `gmul` and `xtime` are
the sum, the product and the product with `x` of residues. A law of bytes is then a law of residues. -/

namespace Sys2Proof.Machine

open Polynomial (X)

/-! The polynomial of a byte (rule R100). -/

/-- The polynomial whose coefficient of `x^i` is bit `i` of the byte. -/
noncomputable def bytePoly (v : Byte) : Polynomial (ZMod 2) :=
  Polynomial.ofFn 8 fun i => if v.getLsbD i then 1 else 0

theorem represents_bytePoly (v : Byte) : Represents v (bytePoly v) := by
  intro i
  by_cases hi : i < 8
  · exact Polynomial.ofFn_coeff_eq_val_of_lt _ hi
  · rw [BitVec.getLsbD_of_ge v i (by omega)]
    exact Polynomial.ofFn_coeff_eq_zero_of_ge _ (by omega)

theorem coeff_bytePoly (v : Byte) (i : Nat) : (bytePoly v).coeff i = if v.getLsbD i then 1 else 0 :=
  represents_bytePoly v i

/-- No other polynomial has the bits of the byte as its coefficients. -/
theorem Represents.eq_bytePoly {v : Byte} {p : Polynomial (ZMod 2)} (h : Represents v p) : p = bytePoly v :=
  Polynomial.ext fun i => (h i).trans (coeff_bytePoly v i).symm

theorem bytePoly_injective : Function.Injective bytePoly := by
  intro a b h
  refine BitVec.eq_of_getLsbD_eq fun i _ => ?_
  have hcoeff : (bytePoly a).coeff i = (bytePoly b).coeff i := by rw [h]
  rw [coeff_bytePoly, coeff_bytePoly] at hcoeff
  cases ha : a.getLsbD i <;> cases hb : b.getLsbD i <;> simp [ha, hb] at hcoeff ⊢

theorem bytePoly_zero : bytePoly 0 = 0 :=
  map_zero (Polynomial.ofFn 8)

/-- Addition of coefficients modulo 2 is XOR of bits (rule R101). -/
theorem bytePoly_xor (a b : Byte) : bytePoly (a ^^^ b) = bytePoly a + bytePoly b := by
  ext i
  rw [Polynomial.coeff_add, coeff_bytePoly, coeff_bytePoly, coeff_bytePoly, BitVec.getLsbD_xor]
  cases a.getLsbD i <;> cases b.getLsbD i <;> decide

/-- The bit a right shift drops is the constant term. -/
theorem bytePoly_eq_add_X_mul (b : Byte) :
    bytePoly b = (if b.getLsbD 0 then 1 else 0 : Polynomial (ZMod 2)) + X * bytePoly (b >>> 1) := by
  ext i
  rw [Polynomial.coeff_add, coeff_bytePoly, apply_ite (Polynomial.coeff · i)]
  cases i with
  | zero => simp
  | succ n => simp [coeff_bytePoly, Polynomial.coeff_one, Nat.add_comm 1 n]

/-- The bit a left shift drops is the coefficient of `x^8`. -/
theorem X_mul_bytePoly (a : Byte) :
    X * bytePoly a = bytePoly (a <<< 1) + (if a.getLsbD 7 then X ^ 8 else 0 : Polynomial (ZMod 2)) := by
  ext i
  rw [Polynomial.coeff_add, coeff_bytePoly, apply_ite (Polynomial.coeff · i), Polynomial.coeff_X_pow]
  cases i with
  | zero => simp
  | succ n =>
    rw [Polynomial.coeff_X_mul, coeff_bytePoly, BitVec.getLsbD_shiftLeft]
    obtain h | rfl | h := lt_trichotomy n 7
    · simp [h.ne, show n + 1 < 8 by omega]
    · simp
    · simp [BitVec.getLsbD_of_ge a n h, h.ne']

/-! The reduction (rule R102). -/

/-- The polynomial modulo which the field is built (rule R100). -/
noncomputable def reductionPoly : Polynomial (ZMod 2) := X ^ 8 + X ^ 4 + X ^ 3 + X + 1

theorem reductionPoly_monic : reductionPoly.Monic := by
  unfold reductionPoly
  monicity!

/-- The polynomial of a byte is its own remainder. -/
theorem bytePoly_modByMonic (v : Byte) : bytePoly v %ₘ reductionPoly = bytePoly v := by
  have hdegree : reductionPoly.degree = 8 := by
    unfold reductionPoly
    compute_degree!
  rw [Polynomial.modByMonic_eq_self_iff reductionPoly_monic, hdegree]
  exact Polynomial.ofFn_degree_lt _

/-- The reduction constant is the reduction polynomial without `x^8`. -/
theorem reductionPoly_eq : reductionPoly = X ^ 8 + bytePoly reductionConstant := by
  have hlow : bytePoly reductionConstant = 1 + X + X ^ 3 + X ^ 4 := by
    simp [bytePoly, Polynomial.ofFn_eq_sum_monomial, Fin.sum_univ_eight, reductionConstant,
      Polynomial.monomial_one_right_eq_X_pow]
  rw [reductionPoly, hlow]
  ring

/-- A shift and reduction is the product with `x`, less the reduction polynomial if that has an `x^8`. -/
theorem X_mul_bytePoly_eq_shiftReduce (a : Byte) :
    X * bytePoly a = bytePoly (shiftReduce a) + if a.getLsbD 7 then reductionPoly else 0 := by
  rw [X_mul_bytePoly, shiftReduce]
  split
  · rw [bytePoly_xor, reductionPoly_eq]
    linear_combination -CharTwo.add_self_eq_zero (bytePoly reductionConstant)
  · rfl

/-! The residue of a byte. -/

/-- The class of a byte's polynomial modulo the reduction polynomial. -/
noncomputable def byteResidue (v : Byte) : AdjoinRoot reductionPoly := AdjoinRoot.mk reductionPoly (bytePoly v)

/-- The class of `x`. -/
noncomputable abbrev rootX : AdjoinRoot reductionPoly := AdjoinRoot.root reductionPoly

theorem byteResidue_injective : Function.Injective byteResidue := by
  intro a b h
  have hmod := Polynomial.modByMonic_eq_of_dvd_sub reductionPoly_monic (AdjoinRoot.mk_eq_mk.mp h)
  rw [bytePoly_modByMonic, bytePoly_modByMonic] at hmod
  exact bytePoly_injective hmod

@[simp] theorem byteResidue_zero : byteResidue 0#8 = 0 :=
  (congrArg _ bytePoly_zero).trans (map_zero _)

@[simp] theorem byteResidue_xor (a b : Byte) : byteResidue (a ^^^ b) = byteResidue a + byteResidue b := by
  rw [byteResidue, bytePoly_xor, map_add, byteResidue, byteResidue]

@[simp] theorem byteResidue_gadd (a b : Byte) : byteResidue (gadd a b) = byteResidue a + byteResidue b :=
  byteResidue_xor a b

theorem byteResidue_eq_add_rootX_mul (b : Byte) :
    byteResidue b =
      (if b.getLsbD 0 then 1 else 0 : AdjoinRoot reductionPoly) + rootX * byteResidue (b >>> 1) := by
  rw [byteResidue, bytePoly_eq_add_X_mul, map_add, map_mul, apply_ite (AdjoinRoot.mk reductionPoly), map_one,
    map_zero, AdjoinRoot.mk_X, byteResidue]

@[simp] theorem byteResidue_one : byteResidue 1#8 = 1 := by
  rw [byteResidue_eq_add_rootX_mul]
  simp

theorem byteResidue_two : byteResidue 2#8 = rootX := by
  rw [byteResidue_eq_add_rootX_mul]
  simp

theorem byteResidue_shiftReduce (a : Byte) : byteResidue (shiftReduce a) = rootX * byteResidue a := by
  have h := congrArg (AdjoinRoot.mk reductionPoly) (X_mul_bytePoly_eq_shiftReduce a)
  rw [map_mul, map_add, apply_ite (AdjoinRoot.mk reductionPoly), AdjoinRoot.mk_self, map_zero, ite_self, add_zero] at h
  exact h.symm

/-- `n` iterations add the product of the running `a` with the lowest `n` bits of the running `b`. -/
theorem byteResidue_gmulLoop {n : Nat} {b : Byte} (a acc : Byte) (hb : b.toNat < 2 ^ n) :
    byteResidue (gmulLoop n a b acc) = byteResidue acc + byteResidue a * byteResidue b := by
  induction n generalizing a b acc with
  | zero =>
    have hzero : b = 0 := BitVec.eq_of_toNat_eq (by simpa using hb)
    simp [gmulLoop, hzero]
  | succ n ih =>
    have hshift : (b >>> 1).toNat < 2 ^ n := by
      rw [BitVec.toNat_ushiftRight, Nat.shiftRight_eq_div_pow]
      omega
    have hacc : byteResidue (if b.getLsbD 0 then acc ^^^ a else acc) =
        byteResidue acc + byteResidue a * (if b.getLsbD 0 then 1 else 0 : AdjoinRoot reductionPoly) := by
      split <;> simp
    rw [gmulLoop, ih _ _ hshift, hacc, byteResidue_shiftReduce, byteResidue_eq_add_rootX_mul b]
    ring

/-- `gmul` is the product of residues (rules R100, R102). -/
@[simp] theorem byteResidue_gmul (a b : Byte) : byteResidue (gmul a b) = byteResidue a * byteResidue b :=
  (byteResidue_gmulLoop a 0 b.isLt).trans (by simp)

/-! The laws of a ring (rule R107 clauses (c) and (d)). -/

theorem gmul_comm (a b : Byte) : gmul a b = gmul b a :=
  byteResidue_injective (by simp [mul_comm])

theorem gmul_assoc (a b c : Byte) : gmul (gmul a b) c = gmul a (gmul b c) :=
  byteResidue_injective (by simp [mul_assoc])

theorem gmul_xor (a b c : Byte) : gmul a (b ^^^ c) = gmul a b ^^^ gmul a c :=
  byteResidue_injective (by simp [mul_add])

theorem gmul_zero (a : Byte) : gmul a 0 = 0 :=
  byteResidue_injective (by simp)

theorem gmul_one (a : Byte) : gmul a 1 = a :=
  byteResidue_injective (by simp)

theorem zero_gmul (a : Byte) : gmul 0 a = 0 :=
  (gmul_comm 0 a).trans (gmul_zero a)

theorem one_gmul (a : Byte) : gmul 1 a = a :=
  (gmul_comm 1 a).trans (gmul_one a)

/-! Doubling (rule R103). -/

theorem xtime_eq_shiftReduce (a : Byte) : xtime a = shiftReduce a :=
  byteResidue_injective (by simp [xtime, byteResidue_shiftReduce, byteResidue_two, mul_comm])

theorem gmul_xtime (a b : Byte) : gmul a (xtime b) = xtime (gmul a b) :=
  (gmul_assoc a b 2).symm

/-! Inverses (rule R107 clause (f)). The `2^8`-th power of a residue is the residue itself, so the 255th power of a byte
is its own square; the only such bytes are 0 and 1. -/

theorem byteResidue_iterate_gmul (a : Byte) (n : Nat) : byteResidue ((gmul a)^[n] 1) = byteResidue a ^ n := by
  induction n with
  | zero => simp
  | succ n ih => rw [Function.iterate_succ_apply', byteResidue_gmul, ih, pow_succ']

/-- Over GF(2), squaring a polynomial doubles its exponents. -/
theorem pow_two_pow_eq_expand (p : Polynomial (ZMod 2)) (n : Nat) :
    p ^ 2 ^ n = Polynomial.expand (ZMod 2) (2 ^ n) p := by
  induction n with
  | zero => simp
  | succ n ih => rw [pow_succ, pow_mul, ih, ← ZMod.expand_card, Polynomial.expand_expand, mul_comm]

theorem rootX_pow : rootX ^ 2 ^ 8 = rootX := by
  have hpow : (gmul 2)^[2 ^ 8] 1 = 2 := by decide +kernel
  calc rootX ^ 2 ^ 8
    _ = byteResidue 2 ^ 2 ^ 8 := congrArg (· ^ 2 ^ 8) byteResidue_two.symm
    _ = byteResidue 2 := by rw [← byteResidue_iterate_gmul, hpow]
    _ = rootX := byteResidue_two

/-- As `x` is its own `2^8`-th power, so is every residue. -/
theorem byteResidue_pow (a : Byte) : byteResidue a ^ 2 ^ 8 = byteResidue a := by
  calc byteResidue a ^ 2 ^ 8
    _ = AdjoinRoot.mk reductionPoly (Polynomial.expand (ZMod 2) (2 ^ 8) (bytePoly a)) := by
      rw [byteResidue, ← map_pow, pow_two_pow_eq_expand]
    _ = Polynomial.aeval (rootX ^ 2 ^ 8) (bytePoly a) := by
      rw [← AdjoinRoot.aeval_eq, Polynomial.expand_aeval]
    _ = byteResidue a := by rw [rootX_pow, AdjoinRoot.aeval_eq, byteResidue]

/-- The residues are not a product of two rings: 0 and 1 are the only idempotents. -/
theorem eq_zero_or_one_of_gmul_self : ∀ e : Byte, gmul e e = e → e = 0 ∨ e = 1 := by decide +kernel

/-- The inverse of a nonzero byte is its 254th power. -/
theorem gmul_iterate_gmul_eq_one {a : Byte} (ha : a ≠ 0) : gmul a ((gmul a)^[254] 1) = 1 := by
  have hpow : byteResidue a ^ 255 * byteResidue a = byteResidue a := (pow_succ ..).symm.trans (byteResidue_pow a)
  have hidem : gmul ((gmul a)^[255] 1) ((gmul a)^[255] 1) = (gmul a)^[255] 1 := by
    refine byteResidue_injective ?_
    rw [byteResidue_gmul, byteResidue_iterate_gmul]
    linear_combination byteResidue a ^ 254 * hpow
  rw [← Function.iterate_succ_apply' (gmul a) 254]
  obtain hzero | hone := eq_zero_or_one_of_gmul_self _ hidem
  · refine absurd (byteResidue_injective ?_) ha
    rw [← hpow, ← byteResidue_iterate_gmul, hzero]
    simp
  · exact hone

theorem eq_of_gmul_eq_one {a b c : Byte} (hb : gmul a b = 1) (hc : gmul a c = 1) : c = b :=
  calc c
    _ = gmul (gmul a b) c := by rw [hb, one_gmul]
    _ = gmul b (gmul a c) := by rw [gmul_comm a b, gmul_assoc]
    _ = b := by rw [hc, gmul_one]

end Sys2Proof.Machine
end

section
/-! SUPPORT. The words of the three field commands as the spec spells them (30_encoding.md rule R77). -/

namespace Sys2Proof

theorem encode_gfadd (a b : Byte) : encode (.gfadd a b) = Machine.spelledWord 0x01000000 a b :=
  packBytes_eq_spelledWord .gfadd a b

theorem encode_gfsub (a b : Byte) : encode (.gfsub a b) = Machine.spelledWord 0x02000000 a b :=
  packBytes_eq_spelledWord .gfsub a b

theorem encode_gfmul (a b : Byte) : encode (.gfmul a b) = Machine.spelledWord 0x03000000 a b :=
  packBytes_eq_spelledWord .gfmul a b

end Sys2Proof
end

section
/-! The field family (41_gf_arithmetic.md): the commands GFADD, GFSUB and GFMUL, the product as polynomials, the laws of
the field, and the multiples made of doublings. -/

namespace Sys2Proof.Machine

/-- Settles O22: the product and its remainder have one residue, and a byte's polynomial is its own remainder. -/
theorem gmulIsTheReducedPolynomialProduct : Obligations.GmulIsTheReducedPolynomialProduct := by
  intro a b p q r hp hq hr
  rw [hp.eq_bytePoly, hq.eq_bytePoly, hr.eq_bytePoly]
  have hresidue : AdjoinRoot.mk reductionPoly (bytePoly (gmul a b)) =
      AdjoinRoot.mk reductionPoly (bytePoly a * bytePoly b) :=
    (byteResidue_gmul a b).trans (map_mul ..).symm
  calc bytePoly (gmul a b)
    _ = bytePoly (gmul a b) %ₘ reductionPoly := (bytePoly_modByMonic _).symm
    _ = (bytePoly a * bytePoly b) %ₘ reductionPoly :=
      Polynomial.modByMonic_eq_of_dvd_sub reductionPoly_monic (AdjoinRoot.mk_eq_mk.mp hresidue)

/-- Settles O23: the laws of XOR, those of residues, and the inverse `a^254`. -/
theorem gmulObeysTheFieldLaws : Obligations.GmulObeysTheFieldLaws :=
  ⟨BitVec.xor_comm, BitVec.xor_assoc, fun _ => ⟨BitVec.xor_zero, BitVec.xor_self⟩, gmul_comm, gmul_assoc, gmul_xor,
    fun a => ⟨gmul_zero a, zero_gmul a, gmul_one a, one_gmul a⟩,
    fun _ ha => ⟨_, gmul_iterate_gmul_eq_one ha, fun _ => eq_of_gmul_eq_one (gmul_iterate_gmul_eq_one ha)⟩⟩

/-- Settles O19: the word is the encoder's, and the effect is the sum in RES. -/
theorem gfaddXorsItsOperands : Obligations.GfaddXorsItsOperands :=
  ⟨fun a b => decode_eq_ok_iff.mpr (encode_gfadd a b), fun s a b => exec_eq_next_apply (.gfadd a b) s⟩

/-- `gsub` is `gadd`, so the two commands have one effect (rule R101). -/
theorem effect_gfsub_eq_gfadd (a b : Byte) (s : State) : effect (.gfsub a b) s = effect (.gfadd a b) s := rfl

theorem effect_gfsub_comm (a b : Byte) (s : State) : effect (.gfsub a b) s = effect (.gfsub b a) s :=
  congrArg Effect.result (BitVec.xor_comm a b)

theorem effect_gfmul_comm (a b : Byte) (s : State) : effect (.gfmul a b) s = effect (.gfmul b a) s :=
  congrArg Effect.result (gmul_comm a b)

/-- Commands with one effect on a state answer the same. -/
theorem exec_congr_of_effect_eq {i j : Instr} {s : State} (h : effect i s = effect j s) : exec i s = exec j s := by
  rw [exec_eq_next_apply, exec_eq_next_apply, h]

/-- Settles O20: the word is the encoder's, and the effect is that of GFADD, in either order. -/
theorem gfsubXorsItsOperands : Obligations.GfsubXorsItsOperands :=
  ⟨fun a b => decode_eq_ok_iff.mpr (encode_gfsub a b), fun s a b =>
    ⟨exec_eq_next_apply (.gfsub a b) s, exec_congr_of_effect_eq (effect_gfsub_eq_gfadd a b s),
      exec_congr_of_effect_eq (effect_gfsub_comm a b s)⟩⟩

/-- Settles O21: the word is the encoder's, the effect is the product in RES, and the product commutes. -/
theorem gfmulGivesTheFieldProduct : Obligations.GfmulGivesTheFieldProduct :=
  ⟨fun a b => decode_eq_ok_iff.mpr (encode_gfmul a b), fun s a b => exec_eq_next_apply (.gfmul a b) s,
    by decide, by decide, by decide, fun a => ⟨gmul_zero a, zero_gmul a, gmul_one a, one_gmul a⟩,
    fun s a b => exec_congr_of_effect_eq (effect_gfmul_comm a b s)⟩

/-- Settles O24: each multiplier is a sum of doublings of 1, and `gmul` distributes over it. -/
theorem xtimeShiftsAndReduces : Obligations.XtimeShiftsAndReduces := by
  have h3 : (3 : Byte) = xtime 1 ^^^ 1 := by decide
  have h9 : (9 : Byte) = xtime (xtime (xtime 1)) ^^^ 1 := by decide
  have h11 : (11 : Byte) = xtime (xtime (xtime 1)) ^^^ xtime 1 ^^^ 1 := by decide
  have h13 : (13 : Byte) = xtime (xtime (xtime 1)) ^^^ xtime (xtime 1) ^^^ 1 := by decide
  have h14 : (14 : Byte) = xtime (xtime (xtime 1)) ^^^ xtime (xtime 1) ^^^ xtime 1 := by decide
  intro a
  refine ⟨xtime_eq_shiftReduce a, rfl, ?_⟩
  simp only [h3, h9, h11, h13, h14, gmul_xor, gmul_xtime, gmul_one, and_self]

end Sys2Proof.Machine
end

section
/-! SUPPORT. The two tables of the S-box unit (42_sbox.md rules R110 to R113) and the words of its two commands
(30_encoding.md rule R77). -/

namespace Sys2Proof

theorem encode_sub (a : Byte) : encode (.sub a) = Machine.spelledWord 0x08000000 a 0 :=
  packBytes_eq_spelledWord .sub a 0

theorem encode_isub (a : Byte) : encode (.isub a) = Machine.spelledWord 0x09000000 a 0 :=
  packBytes_eq_spelledWord .isub a 0

namespace Machine

/-! The tables are inverse permutations (rule R110), read off entry by entry. -/

@[simp] theorem invSbox_sbox : ∀ x : Byte, invSbox (sbox x) = x := by decide +kernel

@[simp] theorem sbox_invSbox : ∀ x : Byte, sbox (invSbox x) = x := by decide +kernel

theorem sbox_eq_iff {x y : Byte} : sbox x = y ↔ x = invSbox y :=
  ⟨fun h => h ▸ (invSbox_sbox x).symm, fun h => h ▸ sbox_invSbox y⟩

/-- The one index that maps to 0 (rule R114) is the entry of the inverse table at 0. -/
theorem sbox_eq_zero_iff (x : Byte) : sbox x = 0x00 ↔ x = 0x52 := by
  rw [sbox_eq_iff, show invSbox 0x00 = 0x52 by decide]

/-- No index is kept or complemented (the inference of rule R114, by evaluation of the table). -/
theorem sbox_ne_self_and_ne_complement : ∀ x : Byte, sbox x ≠ x ∧ sbox x ≠ x ^^^ 0xFF := by decide +kernel

/-! The construction of SBOX (rule R111). -/

/-- The affine transform: the XOR of a byte with its rotations by 1 to 4 and the constant. -/
def affineMap (y : Byte) : Byte :=
  y ^^^ (y <<< 1 ||| y >>> 7) ^^^ (y <<< 2 ||| y >>> 6) ^^^ (y <<< 3 ||| y >>> 5) ^^^ (y <<< 4 ||| y >>> 4) ^^^ 0x63

/-- The construction backwards: the inverse table undoes the affine transform up to the inverse in the field. -/
theorem gmul_invSbox_affineMap : ∀ y : Byte, y ≠ 0 → gmul y (invSbox (affineMap y)) = 1 := by decide +kernel

/-- An inverse in the field is unique, so the byte that `y` inverts is the one the inverse table gives. -/
theorem sbox_eq_affineMap_of_gmul_eq_one {x y : Byte} (h : gmul x y = 1) : sbox x = affineMap y := by
  have hy : y ≠ 0 := by
    rintro rfl
    exact absurd ((gmul_zero x).symm.trans h) (by decide)
  rw [gmul_comm] at h
  exact sbox_eq_iff.mpr (eq_of_gmul_eq_one (gmul_invSbox_affineMap y hy) h)

/-! The commands (rules R114, R115). -/

theorem exec_sub (a : Byte) (s : State) : exec (.sub a) s = .next { s with res := sbox a, status := 0 } :=
  exec_eq_next_apply (.sub a) s

theorem exec_isub (a : Byte) (s : State) : exec (.isub a) s = .next { s with res := invSbox a, status := 0 } :=
  exec_eq_next_apply (.isub a) s

end Machine
end Sys2Proof
end

section
/-! The S-box family (42_sbox.md): the commands SUB and ISUB, and the construction of the table SBOX. -/

namespace Sys2Proof.Machine

/-- Settles O26: 0 goes to the constant, and every other byte by its unique inverse. -/
theorem sboxIsTheAffineMapOfTheInverse : Obligations.SboxIsTheAffineMapOfTheInverse := by
  rintro x y (⟨rfl, rfl⟩ | h)
  · decide
  · exact sbox_eq_affineMap_of_gmul_eq_one h

/-- Settles O25: the words are the encoder's, the effects are the table entries in RES, and the tables are inverse
permutations. -/
theorem subAndIsubLookUpTheTables : Obligations.SubAndIsubLookUpTheTables :=
  ⟨fun a => decode_eq_ok_iff.mpr (encode_sub a), fun a => decode_eq_ok_iff.mpr (encode_isub a),
    fun s a => exec_sub a s, fun s a => exec_isub a s, by decide, by decide, by decide, by decide, by decide,
    by decide, by decide, sbox_eq_zero_iff, sbox_ne_self_and_ne_complement, fun s x =>
    ⟨⟨_, _, exec_sub x s, exec_isub .., invSbox_sbox x⟩, ⟨_, _, exec_isub x s, exec_sub .., sbox_invSbox x⟩⟩⟩

end Sys2Proof.Machine
end

section
/-! SUPPORT. The key scheduler's parts (43_key_schedule.md): the selectors, the recurrence of the expansion, the store
above a schedule, and the word of KEXP (30_encoding.md rule R77). -/

namespace Sys2Proof

theorem encode_kexp (imm16 : BitVec 16) : encode (.kexp imm16) = 0x12000000 ||| imm16.setWidth 32 :=
  packImm_eq_or (opcodeByte .kexp) imm16

/-! The sizes (rule R120). -/

theorem KeySize.nk_pos (k : KeySize) : 0 < k.nk := by
  cases k <;> decide

theorem KeySize.nk_le_words (k : KeySize) : k.nk ≤ k.words := by
  unfold KeySize.words
  omega

/-- The selectors of the three sizes. -/
theorem KeySize.exists_eq_bits_iff {n : Nat} : (∃ k : KeySize, n = k.bits) ↔ n = 128 ∨ n = 192 ∨ n = 256 := by
  constructor
  · rintro ⟨k, rfl⟩
    cases k <;> decide
  · rintro (rfl | rfl | rfl)
    · exact ⟨.k128, rfl⟩
    · exact ⟨.k192, rfl⟩
    · exact ⟨.k256, rfl⟩

/-- KEXP's length check is on `imm16 / 8` (rule R126). -/
theorem KeySize.bits_div_eight (k : KeySize) : k.bits / 8 = k.keyBytes := by
  unfold KeySize.bits KeySize.keyBytes
  omega

namespace Machine

/-- Each round constant after the first is the doubling of the one before it (rule R122). -/
theorem rc_eq_xtime_rc_pred {j : Nat} (h : 2 ≤ j) : rc j = xtime (rc (j - 1)) := by
  obtain ⟨n, rfl⟩ := Nat.exists_eq_add_of_le' h
  rfl

/-! The recurrence of the expansion (rule R123). -/

/-- Word `i` of `w` is made from the word before it and the word `nk` before it. -/
def FollowsRecurrence (nk : Nat) (w : List KeyWord) (i : Nat) : Prop :=
  wordAt w i = xorWord (scheduleTemp nk i (wordAt w (i - 1))) (wordAt w (i - nk))

theorem foldl_expandStep_length (nk : Nat) (is : List Nat) (w : List KeyWord) :
    (is.foldl (expandStep nk) w).length = w.length + is.length := by
  induction is generalizing w with
  | nil => rfl
  | cons i is ih =>
    rw [List.foldl_cons, ih, expandStep_length, List.length_cons]
    omega

/-- The iterations from `w.length` on make words that follow the recurrence: the iteration that appends word `i` reads
earlier words alone, and the later ones leave all of them as they are. -/
theorem followsRecurrence_foldl_expandStep {nk i : Nat} (hnk : 0 < nk) (n : Nat) (w : List KeyWord)
    (hw : 0 < w.length) (hi : w.length ≤ i) (hn : i < w.length + n) :
    FollowsRecurrence nk ((List.range' w.length n).foldl (expandStep nk) w) i := by
  induction n generalizing w with
  | zero => omega
  | succ n ih =>
    have hlength := expandStep_length nk w w.length
    rw [List.range'_succ, List.foldl_cons]
    obtain rfl | hlt := Nat.eq_or_lt_of_le hi
    · have hold : ∀ j ≤ w.length, wordAt ((List.range' (w.length + 1) n).foldl (expandStep nk)
          (expandStep nk w w.length)) j = wordAt (expandStep nk w w.length) j := fun j hj =>
        wordAt_foldl_expandStep_old nk j _ _ (by omega)
      rw [FollowsRecurrence, hold _ le_rfl, hold _ (Nat.sub_le ..), hold _ (Nat.sub_le ..), wordAt_expandStep_new,
        wordAt_expandStep_old nk w _ _ (by omega), wordAt_expandStep_old nk w _ _ (by omega)]
    · rw [← hlength]
      exact ih _ (by omega) (by omega) (by omega)

theorem keyExpansion_length (k : KeySize) (K : Vector Byte k.keyBytes) : (keyExpansion k K).length = k.words := by
  rw [keyExpansion, foldl_expandStep_length, keyWords_length, List.length_range', Nat.add_sub_cancel' k.nk_le_words]

/-- Every word of an expansion after the raw key follows the recurrence. -/
theorem followsRecurrence_keyExpansion {k : KeySize} (K : Vector Byte k.keyBytes) {i : Nat} (hi : k.nk ≤ i)
    (hwords : i < k.words) : FollowsRecurrence k.nk (keyExpansion k K) i := by
  have hlength := keyWords_length k K
  have h := followsRecurrence_foldl_expandStep k.nk_pos (k.words - k.nk) (keyWords k K)
    (hlength ▸ k.nk_pos) (hlength ▸ hi) (by omega)
  rwa [hlength] at h

/-! The store (rules R23, R126). -/

/-- A byte above the schedule keeps what it held. -/
theorem expandedStore_of_scheduleBytes_le {k : KeySize} (K : Vector Byte k.keyBytes) (old : ScheduleStore) {i : Nat}
    (h : i < 240) (hi : k.scheduleBytes ≤ i) : (expandedStore k K old)[i] = old[i] := by
  unfold expandedStore
  rw [storeWords_get, if_neg (Nat.not_lt.mpr hi)]

/-- The same schedule stored again changes no byte: those within it are rewritten, those above it kept. -/
theorem expandedStore_expandedStore (k : KeySize) (K : Vector Byte k.keyBytes) (old : ScheduleStore) :
    expandedStore k K (expandedStore k K old) = expandedStore k K old := by
  apply Vector.ext
  intro i h
  obtain hlt | hle := Nat.lt_or_ge i k.scheduleBytes
  · exact (holdsExpansion_expandedStore k K _ ⟨i, h⟩ hlt).trans (holdsExpansion_expandedStore k K old ⟨i, h⟩ hlt).symm
  · exact expandedStore_of_scheduleBytes_le K _ h hle

/-- An effect repeated at once changes nothing more. -/
theorem Effect.apply_apply (e : Effect) (s : State) : e.apply (e.apply s) = e.apply s := by
  cases e
  case blockByte i v => exact congrArg ((Effect.blockByte i v).apply s).setBlk (Vector.set_set v i.isLt)
  case keyByte i v => exact congrArg ((Effect.keyByte i v).apply s).setKey (Vector.set_set v i.isLt)
  case schedule k K =>
    exact congrArg ((Effect.schedule k K).apply s).setKsb (expandedStore_expandedStore k K s.ksb)
  all_goals rfl

end Machine
end Sys2Proof
end

section
/-! The key-schedule family (43_key_schedule.md): the sizes, the word functions, the round constants, the expansion, and
the command KEXP. -/

namespace Sys2Proof.Machine

/-- Settles O27, size by size. -/
theorem keySizesMatchTheTable : Obligations.KeySizesMatchTheTable :=
  ⟨rfl, fun k => by cases k <;> rfl⟩

/-- Settles O28: each function is defined by its four bytes. -/
theorem wordFunctionsActByteByByte : Obligations.WordFunctionsActByteByByte :=
  fun _ _ _ _ _ _ _ _ => ⟨rfl, rfl, rfl⟩

/-- Settles O29: the recurrence is that of the doublings, and the values are evaluated. -/
theorem roundConstantsDouble : Obligations.RoundConstantsDouble :=
  ⟨rfl, fun _ => rc_eq_xtime_rc_pred, fun _ _ => rfl, by decide⟩

/-- Settles O30: the words after the raw key follow the recurrence, whose two branches are those of `scheduleTemp`. -/
theorem keyExpansionFollowsItsRecurrence : Obligations.KeyExpansionFollowsItsRecurrence :=
  fun k K => ⟨keyExpansion_length k K, wordAt_keyExpansion_of_lt_nk k K,
    fun _ hi hwords => followsRecurrence_keyExpansion K hi hwords⟩

/-- Settles O31: the word is the encoder's, and each outcome of the checks has its effect. -/
theorem kexpBuildsTheScheduleOrChangesOnlyStatus : Obligations.KexpBuildsTheScheduleOrChangesOnlyStatus := by
  refine ⟨fun imm16 => decode_eq_ok_iff.mpr (encode_kexp imm16), fun s imm16 h128 h192 h256 => ?_,
    fun s imm16 hsize hlen => ?_, fun s imm16 k hsize hlen => ?_⟩
  · have hnone : keySize? imm16 = none := keySize?_eq_none.mpr fun k hk => by
      have := KeySize.exists_eq_bits_iff.mp ⟨k, hk⟩
      omega
    exact exec_eq_next_of_effect_eq (effect_kexp_of_size_eq_none hnone s)
  · obtain ⟨k, hk⟩ := KeySize.exists_eq_bits_iff.mpr hsize
    rw [hk, k.bits_div_eight] at hlen
    exact exec_eq_next_of_effect_eq (effect_kexp_of_keyLen_ne (keySize?_eq_some.mpr hk) hlen)
  · have hbits : imm16.toNat = k.bits := hsize
    rw [hbits, k.bits_div_eight] at hlen
    exact ⟨_, exec_eq_next_of_effect_eq (effect_kexp hbits hlen), rfl,
      Effect.holdsExpansion_apply_schedule k (rawKey k s.key) s,
      fun i hi => expandedStore_of_scheduleBytes_le _ s.ksb i.isLt hi⟩

/-- KEXP writes neither KEY nor KEYLEN, all it reads, so the next KEXP has the effect of this one (rule R125). -/
theorem effect_kexp_afterInstr_kexp (imm16 : BitVec 16) (s : State) :
    effect (.kexp imm16) (afterInstr s (.kexp imm16)) = effect (.kexp imm16) s :=
  kexpEffect_congr imm16 (Effect.apply_key s (effect_item_ne s (by simp [writtenItem, instrOpcode])))
    (Effect.apply_keyLen s (effect_item_ne s (by simp [writtenItem, instrOpcode])))

/-- Settles O33: the second KEXP has the effect of the first, and an effect repeated changes nothing more. -/
theorem kexpTwiceIsKexpOnce : Obligations.KexpTwiceIsKexpOnce := by
  intro s imm16
  refine ⟨afterInstr s (.kexp imm16), exec_eq_next_apply .., ?_⟩
  rw [exec_eq_next_apply, effect_kexp_afterInstr_kexp]
  exact congrArg _ (Effect.apply_apply ..)

end Sys2Proof.Machine
end

section
/-! SUPPORT. The round transforms as functions on a block (44_round_transforms.md rules R140 to R146, R154): what each
does to an element `s[r][c]`, and which of them invert each other or commute. Blocks with the same elements are equal,
and a matrix applied after another is their product applied once. -/

namespace Sys2Proof.Machine

/-! Elements (rule R9). -/

theorem element_congr (S : Block) {r r' c c' : Nat} (hr : r % 4 = r' % 4) (hc : c % 4 = c' % 4) :
    element S r c = element S r' c' := by
  simp only [element, hr, hc]

theorem getElem_eq_element (S : Block) (k : Nat) (h : k < 16) : S[k] = element S (k % 4) (k / 4) := by
  have hk : 4 * (k / 4 % 4) + k % 4 % 4 = k := by omega
  simp only [element, hk]

/-- Blocks are equal when their elements are. -/
theorem block_ext {S T : Block} (h : ∀ r c, element S r c = element T r c) : S = T := by
  apply Vector.ext
  intro k hk
  rw [getElem_eq_element, getElem_eq_element, h]

/-- A byte of one block read off from the byte of another with the same element. -/
theorem getElem?_eq_of_element_eq {S T : Block} {k j c : Nat} (hk : k < 16)
    (h : element T (k % 4) (k / 4) = element S (k % 4) c) (hj : j = 4 * (c % 4) + k % 4) : T[k]? = S[j]? := by
  rw [getElem?_pos T k hk, getElem?_pos S j (by omega), getElem_eq_element, getElem_eq_element, h]
  exact congrArg some (element_congr S (by omega) (by omega))

theorem element_subBytes (S : Block) (r c : Nat) : element (subBytes S) r c = sbox (element S r c) :=
  subBytes_get ..

theorem element_invSubBytes (S : Block) (r c : Nat) : element (invSubBytes S) r c = invSbox (element S r c) :=
  invSubBytes_get ..

theorem element_shiftRows (S : Block) (r c : Nat) : element (shiftRows S) r c = element S r (c + r % 4) :=
  (shiftRows_get ..).trans (element_congr S (by omega) (by omega))

theorem element_invShiftRows (S : Block) (r c : Nat) : element (invShiftRows S) r c = element S r (c + 4 - r % 4) :=
  (invShiftRows_get ..).trans (element_congr S (by omega) (by omega))

theorem rowTimesColumn_congr (row : MixRow) (S : Block) {c c' : Nat} (h : c % 4 = c' % 4) :
    rowTimesColumn row S c = rowTimesColumn row S c' := by
  simp only [rowTimesColumn, element_congr S rfl h]

theorem element_mixWith (rows : Fin 4 → MixRow) (S : Block) (r c : Nat) :
    element (mixWith rows S) r c = rowTimesColumn (rows ⟨r % 4, Nat.mod_lt _ (by decide)⟩) S c := by
  have hrow : (4 * (c % 4) + r % 4) % 4 = r % 4 := by omega
  rw [element, mixWith_get]
  simp only [hrow]
  exact rowTimesColumn_congr _ S (by omega)

/-- The four bytes of a column after a matrix, from its four old bytes. -/
theorem mixWith_column (rows : Fin 4 → MixRow) (S : Block) (r c : Fin 4) :
    (mixWith rows S)[4 * c.val + r.val] = gmul (rows r).m0 S[4 * c.val] ^^^ gmul (rows r).m1 S[4 * c.val + 1] ^^^
      gmul (rows r).m2 S[4 * c.val + 2] ^^^ gmul (rows r).m3 S[4 * c.val + 3] := by
  have hold : ∀ i (hi : i < 4), element S i c = S[4 * c.val + i] := fun i hi => element_eq S i c hi c.isLt
  rw [← element_eq _ r c r.isLt c.isLt, element_mixWith]
  simp only [Nat.mod_eq_of_lt r.isLt, rowTimesColumn, hold, Nat.reduceLT, Nat.add_zero]

/-! SubBytes and ShiftRows (rules R140 to R143, R154). -/

@[simp] theorem invSubBytes_subBytes (S : Block) : invSubBytes (subBytes S) = S :=
  block_ext fun r c => by rw [element_invSubBytes, element_subBytes, invSbox_sbox]

@[simp] theorem subBytes_invSubBytes (S : Block) : subBytes (invSubBytes S) = S :=
  block_ext fun r c => by rw [element_subBytes, element_invSubBytes, sbox_invSbox]

@[simp] theorem invShiftRows_shiftRows (S : Block) : invShiftRows (shiftRows S) = S :=
  block_ext fun r c => by
    rw [element_invShiftRows, element_shiftRows]
    exact element_congr S rfl (by omega)

@[simp] theorem shiftRows_invShiftRows (S : Block) : shiftRows (invShiftRows S) = S :=
  block_ext fun r c => by
    rw [element_shiftRows, element_invShiftRows]
    exact element_congr S rfl (by omega)

/-- Three columns to the left are one to the right. -/
theorem shiftRows_shiftRows_shiftRows (S : Block) : shiftRows (shiftRows (shiftRows S)) = invShiftRows S :=
  block_ext fun r c => by
    simp only [element_shiftRows, element_invShiftRows]
    exact element_congr S rfl (by omega)

theorem shiftRows_subBytes (S : Block) : shiftRows (subBytes S) = subBytes (shiftRows S) :=
  block_ext fun r c => by simp only [element_shiftRows, element_subBytes]

theorem invShiftRows_invSubBytes (S : Block) : invShiftRows (invSubBytes S) = invSubBytes (invShiftRows S) :=
  block_ext fun r c => by simp only [element_invShiftRows, element_invSubBytes]

/-! MixColumns (rules R144, R145). -/

/-- A row times a matrix, a row again. -/
def rowTimesMatrix (row : MixRow) (rows : Fin 4 → MixRow) : MixRow where
  m0 := gmul row.m0 (rows 0).m0 ^^^ gmul row.m1 (rows 1).m0 ^^^ gmul row.m2 (rows 2).m0 ^^^ gmul row.m3 (rows 3).m0
  m1 := gmul row.m0 (rows 0).m1 ^^^ gmul row.m1 (rows 1).m1 ^^^ gmul row.m2 (rows 2).m1 ^^^ gmul row.m3 (rows 3).m1
  m2 := gmul row.m0 (rows 0).m2 ^^^ gmul row.m1 (rows 1).m2 ^^^ gmul row.m2 (rows 2).m2 ^^^ gmul row.m3 (rows 3).m2
  m3 := gmul row.m0 (rows 0).m3 ^^^ gmul row.m1 (rows 1).m3 ^^^ gmul row.m2 (rows 2).m3 ^^^ gmul row.m3 (rows 3).m3

/-- The rows of the identity matrix. -/
def identityRow : Fin 4 → MixRow
  | 0 => ⟨1, 0, 0, 0⟩
  | 1 => ⟨0, 1, 0, 0⟩
  | 2 => ⟨0, 0, 1, 0⟩
  | 3 => ⟨0, 0, 0, 1⟩

/-- A row times a column to which a matrix has been applied is the row times that matrix, times the column: the two
sides are one sum of sixteen products of residues. -/
theorem rowTimesColumn_mixWith (row : MixRow) (rows : Fin 4 → MixRow) (S : Block) (c : Nat) :
    rowTimesColumn row (mixWith rows S) c = rowTimesColumn (rowTimesMatrix row rows) S c := by
  apply byteResidue_injective
  simp only [rowTimesColumn, element_mixWith, Nat.reduceMod, Fin.zero_eta, Fin.mk_one, Fin.reduceFinMk, rowTimesMatrix,
    byteResidue_xor, byteResidue_gmul]
  ring

theorem rowTimesColumn_identityRow (r : Fin 4) (S : Block) (c : Nat) :
    rowTimesColumn (identityRow r) S c = element S r c := by
  apply byteResidue_injective
  fin_cases r <;> simp [rowTimesColumn, identityRow]

/-- A matrix undoes another when its product with it is the identity. -/
theorem mixWith_mixWith_eq_self {rows rows' : Fin 4 → MixRow}
    (h : ∀ r, rowTimesMatrix (rows r) rows' = identityRow r) (S : Block) : mixWith rows (mixWith rows' S) = S :=
  block_ext fun r c => by
    rw [element_mixWith, rowTimesColumn_mixWith, h, rowTimesColumn_identityRow]
    exact element_congr S (Nat.mod_mod r 4) rfl

@[simp] theorem invMixColumns_mixColumns (S : Block) : invMixColumns (mixColumns S) = S :=
  mixWith_mixWith_eq_self (by decide) S

@[simp] theorem mixColumns_invMixColumns (S : Block) : mixColumns (invMixColumns S) = S :=
  mixWith_mixWith_eq_self (by decide) S

/-! AddRoundKey (rule R146). -/

@[simp] theorem addRoundKey_addRoundKey (ks : ScheduleStore) (n : Fin 15) (S : Block) :
    addRoundKey ks n (addRoundKey ks n S) = S := by
  apply Vector.ext
  intro k hk
  rw [addRoundKey_get, addRoundKey_get, BitVec.xor_assoc, BitVec.xor_self, BitVec.xor_zero]

end Sys2Proof.Machine
end

section
/-! SUPPORT. Commands that replace BLK (00_scope.md rule R10): what one or several in a row leave, the outcomes of
ADDROUNDKEY (rule R153), and its word (30_encoding.md rule R77). -/

namespace Sys2Proof

theorem encode_addroundkey (n : Byte) : encode (.addroundkey n) = Machine.spelledWord 0x36000000 n 0 :=
  packBytes_eq_spelledWord .addroundkey n 0

theorem KeySize.nr_val (k : KeySize) : k.nr.val = k.nk + 6 := by
  cases k <;> rfl

namespace Machine

theorem exec_of_effect_eq_block {i : Instr} {s : State} {S : Block} (h : effect i s = .block S) :
    exec i s = .next { s with blk := S, status := 0 } :=
  exec_eq_next_of_effect_eq h

@[simp] theorem Effect.apply_block_blk (S : Block) (s : State) : ((Effect.block S).apply s).blk = S := rfl
@[simp] theorem Effect.apply_block_ksb (S : Block) (s : State) : ((Effect.block S).apply s).ksb = s.ksb := rfl
@[simp] theorem Effect.apply_block_nk (S : Block) (s : State) : ((Effect.block S).apply s).nk = s.nk := rfl

/-- BLK replaced twice is BLK replaced by the second block. -/
theorem Effect.apply_block_apply_block (S T : Block) (s : State) :
    (Effect.block T).apply ((Effect.block S).apply s) = (Effect.block T).apply s := rfl

/-- Two commands of which the second puts the old block back leave the old state, with STATUS 0. -/
theorem execAll_pair_of_restores {i j : Instr} {s : State} {S : Block} (hi : effect i s = .block S)
    (hj : effect j ((Effect.block S).apply s) = .block s.blk) : execAll [i, j] s = .next { s with status := 0 } := by
  rw [execAll_eq_next, afterInstrs_cons, afterInstrs_cons, afterInstrs_nil, afterInstr, afterInstr, hi, hj,
    Effect.apply_block_apply_block]
  rfl

/-- A command that applies `f` to BLK, issued again and again, applies the iterate of `f`. -/
theorem execAll_replicate {i : Instr} {f : Block → Block} (h : ∀ s, effect i s = .block (f s.blk)) (n : Nat)
    (s : State) : execAll (List.replicate (n + 1) i) s = .next ((Effect.block (f^[n + 1] s.blk)).apply s) := by
  have hfirst (s : State) : exec i s = .next ((Effect.block (f s.blk)).apply s) := exec_eq_next_of_effect_eq (h s)
  induction n generalizing s with
  | zero => exact congrArg (andThen · (execAll [])) (hfirst s)
  | succ n ih =>
    calc execAll (List.replicate (n + 2) i) s
      _ = execAll (List.replicate (n + 1) i) ((Effect.block (f s.blk)).apply s) :=
        congrArg (andThen · (execAll (List.replicate (n + 1) i))) (hfirst s)
      _ = .next ((Effect.block (f^[n + 2] s.blk)).apply s) := by rw [ih, Effect.apply_block_apply_block]; rfl

/-! The three outcomes of ADDROUNDKEY, in the order of its checks. -/

theorem effect_addroundkey_of_nk_eq_none {s : State} (h : s.nk = none) (n : Byte) :
    effect (.addroundkey n) s = .error .noSchedule := by
  simp only [effect, h, Effect.underSchedule]

theorem effect_addroundkey_of_nr_lt {s : State} {k : KeySize} {n : Byte} (hk : s.nk = some k)
    (h : k.nr.val < n.toNat) : effect (.addroundkey n) s = .error .illegalOperand := by
  simp only [effect, hk, Effect.underSchedule, roundNumber?_eq_none.mpr h, Effect.atIndex]

theorem effect_addroundkey {s : State} {k : KeySize} {n : Byte} {r : Fin 15} (hk : s.nk = some k)
    (hn : n.toNat = r.val) (hr : r.val ≤ k.nr.val) :
    effect (.addroundkey n) s = .block (addRoundKey s.ksb r s.blk) := by
  simp only [effect, hk, Effect.underSchedule, roundNumber?_eq_some.mpr ⟨hn, hr⟩, Effect.atIndex]

end Machine
end Sys2Proof
end

section
/-! The round-transform family (44_round_transforms.md): the seven commands on BLK and the laws among them. -/

namespace Sys2Proof.Machine

/-! The laws among the functions (rule R154). -/

/-- Settles O39: the laws of the functions on blocks; a round key with one byte 1 does not commute with MixColumns,
which spreads that byte over its column. -/
theorem roundTransformsInvertEachOther : Obligations.RoundTransformsInvertEachOther :=
  ⟨fun S => ⟨invSubBytes_subBytes S, subBytes_invSubBytes S⟩,
    fun S => ⟨invShiftRows_shiftRows S, shiftRows_invShiftRows S⟩,
    fun S => ⟨invMixColumns_mixColumns S, mixColumns_invMixColumns S⟩,
    addRoundKey_addRoundKey, shiftRows_subBytes, invShiftRows_invSubBytes,
    (Vector.replicate 240 0).set 0 1, 0, Vector.replicate 16 0,
    ne_of_apply_ne (fun S : Block => S[1]) (by decide +kernel)⟩

/-! SUBBYTES, INVSUBBYTES, SHIFTROWS and INVSHIFTROWS (rules R147 to R150). -/

/-- Settles O34: byte by byte by the tables, which are inverse and keep no index. -/
theorem subBytesCommandsMapEveryByte : Obligations.SubBytesCommandsMapEveryByte :=
  ⟨decode_encode .subbytes, decode_encode .invsubbytes,
    fun s => ⟨_, exec_of_effect_eq_block rfl, rfl, fun k =>
      have hbyte := subBytes_get s.blk k k.isLt
      ⟨hbyte, hbyte.trans_ne (sbox_ne_self_and_ne_complement s.blk[k]).1⟩⟩,
    fun s => ⟨_, exec_of_effect_eq_block rfl, rfl, fun k => invSubBytes_get s.blk k k.isLt⟩,
    fun s => ⟨execAll_pair_of_restores rfl (congrArg Effect.block (invSubBytes_subBytes s.blk)),
      execAll_pair_of_restores rfl (congrArg Effect.block (subBytes_invSubBytes s.blk))⟩⟩

/-- Settles O35: the printed permutations are the row and column forms, evaluated at the 16 places; the laws are those
of the functions on blocks. -/
theorem shiftRowsCommandsPermuteTheBlock : Obligations.ShiftRowsCommandsPermuteTheBlock := by
  have hleft : ∀ k < 16, [0, 5, 10, 15, 4, 9, 14, 3, 8, 13, 2, 7, 12, 1, 6, 11].getD k 16 =
      4 * ((k / 4 + k % 4 % 4) % 4) + k % 4 := by decide
  have hright : ∀ k < 16, [0, 13, 10, 7, 4, 1, 14, 11, 8, 5, 2, 15, 12, 9, 6, 3].getD k 16 =
      4 * ((k / 4 + 4 - k % 4 % 4) % 4) + k % 4 := by decide
  refine ⟨decode_encode .shiftrows, decode_encode .invshiftrows,
    fun s => ⟨_, exec_of_effect_eq_block rfl, rfl, fun r c => ?_, fun k hk => ?_⟩,
    fun s => ⟨_, exec_of_effect_eq_block rfl, rfl, fun r c => ?_, fun k hk => ?_⟩,
    fun s => ⟨?_, ?_, ?_, ?_⟩⟩
  · simp only [← element_eq _ r c r.isLt c.isLt, element_shiftRows]
    simp only [element, Nat.mod_eq_of_lt r.isLt]
  · exact getElem?_eq_of_element_eq hk (element_shiftRows ..) (hleft k hk)
  · simp only [← element_eq _ r c r.isLt c.isLt, element_invShiftRows]
    simp only [element, Nat.mod_eq_of_lt r.isLt]
  · exact getElem?_eq_of_element_eq hk (element_invShiftRows ..) (hright k hk)
  · exact execAll_pair_of_restores rfl (congrArg Effect.block (invShiftRows_shiftRows s.blk))
  · exact execAll_pair_of_restores rfl (congrArg Effect.block (shiftRows_invShiftRows s.blk))
  · rw [exec_eq_next_apply, effect, ← shiftRows_shiftRows_shiftRows]
    exact execAll_replicate (i := .shiftrows) (f := shiftRows) (fun _ => rfl) 2 s
  · have hfour : shiftRows^[4] s.blk = s.blk :=
      (shiftRows_shiftRows_shiftRows _).trans (invShiftRows_shiftRows s.blk)
    exact (execAll_replicate (i := .shiftrows) (f := shiftRows) (fun _ => rfl) 3 s).trans (by rw [hfour]; rfl)

/-! MIXCOLUMNS and INVMIXCOLUMNS (rules R151, R152). -/

/-- Settles O36: the rows of the forward matrix, whose factors 1 are left out. -/
theorem mixcolumnsMultipliesEveryColumn : Obligations.MixcolumnsMultipliesEveryColumn := by
  refine ⟨decode_encode .mixcolumns, fun s => ⟨_, exec_of_effect_eq_block rfl, rfl, fun c => ?_⟩⟩
  have hcolumn := fun r => mixWith_column mixRow s.blk r c
  refine ⟨(hcolumn 0).trans ?_, (hcolumn 1).trans ?_, (hcolumn 2).trans ?_, (hcolumn 3).trans ?_⟩ <;>
    simp only [mixRow, one_gmul]

/-- Settles O37: the rows of the inverse matrix, whose product with the forward matrix is the identity in either order.
-/
theorem invmixcolumnsMultipliesEveryColumn : Obligations.InvmixcolumnsMultipliesEveryColumn :=
  ⟨decode_encode .invmixcolumns,
    fun s => ⟨execAll_pair_of_restores rfl (congrArg Effect.block (invMixColumns_mixColumns s.blk)),
      execAll_pair_of_restores rfl (congrArg Effect.block (mixColumns_invMixColumns s.blk))⟩,
    fun s => ⟨_, exec_of_effect_eq_block rfl, rfl, fun c =>
      have hcolumn := fun r => mixWith_column invMixRow s.blk r c
      ⟨hcolumn 0, hcolumn 1, hcolumn 2, hcolumn 3⟩⟩⟩

/-! ADDROUNDKEY (rule R153). -/

/-- Settles O38: the three outcomes in the order of the checks; the second of two commands finds the schedule the first
found, and XORs the same round key out again. -/
theorem addroundkeyXorsTheRoundKey : Obligations.AddroundkeyXorsTheRoundKey := by
  refine ⟨fun n => decode_eq_ok_iff.mpr (encode_addroundkey n),
    fun s n hk => exec_eq_next_of_effect_eq (effect_addroundkey_of_nk_eq_none hk n),
    fun s n k hk hn => exec_eq_next_of_effect_eq (effect_addroundkey_of_nr_lt hk (k.nr_val.trans_lt hn)),
    fun s n k r hk hn hr => ?_⟩
  rw [← k.nr_val] at hr
  have hfirst := effect_addroundkey hk hn hr
  have hsecond : effect (.addroundkey n) ((Effect.block (addRoundKey s.ksb r s.blk)).apply s) = .block s.blk := by
    rw [effect_addroundkey ((Effect.apply_block_nk _ s).trans hk) hn hr, Effect.apply_block_ksb,
      Effect.apply_block_blk, addRoundKey_addRoundKey]
  refine ⟨⟨_, exec_of_effect_eq_block hfirst, rfl, fun j => ?_⟩, execAll_pair_of_restores hfirst hsecond⟩
  exact (addRoundKey_get ..).trans (congrArg _ (roundKey_get ..))

end Sys2Proof.Machine
end

section
/-! SUPPORT. The ciphers (45_cipher_engine.md rules R160, R161): their middle rounds as the numbers the elementary
commands carry, that each cipher undoes the other, and the outcomes of ENCBLK and DECBLK. -/

namespace Sys2Proof.Machine

/-- The middle rounds are numbered 1 to Nr − 1, ascending. -/
theorem middleRounds_map_val (k : KeySize) : (middleRounds k).map Fin.val = List.range' 1 (k.nk + 6 - 1) := by
  cases k <;> decide

/-! The two ciphers (rule R164). -/

/-- A fold is undone backwards, seen through `w`: when each step of `g` takes a step of `f` back under `w`, the steps
of `g` in the reverse order take all steps of `f` back. -/
theorem foldl_reverse_foldl_of_step {α β : Type} {f g : β → α → β} {w : β → β} (h : ∀ b a, g (w (f b a)) a = w b)
    (l : List α) (b : β) : l.reverse.foldl g (w (l.foldl f b)) = w b := by
  induction l generalizing b with
  | nil => rfl
  | cons a l ih =>
    calc (a :: l).reverse.foldl g (w ((a :: l).foldl f b))
      _ = g (l.reverse.foldl g (w (l.foldl f (f b a)))) a := by
        rw [List.reverse_cons, List.foldl_concat, List.foldl_cons]
      _ = g (w (f b a)) a := by rw [ih]
      _ = w b := h b a

/-- An inverse round, begun before the ShiftRows and SubBytes of the next round, takes a round back to where its own
ShiftRows and SubBytes are done (rules R160, R161). -/
theorem invCipherRound_cipherRound (ks : ScheduleStore) (S : Block) (r : Fin 15) :
    invCipherRound ks (shiftRows (subBytes (cipherRound ks S r))) r = shiftRows (subBytes S) := by
  simp only [invCipherRound, cipherRound, invShiftRows_shiftRows, invSubBytes_subBytes, addRoundKey_addRoundKey,
    invMixColumns_mixColumns]

/-- A round takes an inverse round back, in the same way. -/
theorem cipherRound_invCipherRound (ks : ScheduleStore) (S : Block) (r : Fin 15) :
    cipherRound ks (invSubBytes (invShiftRows (invCipherRound ks S r))) r = invSubBytes (invShiftRows S) := by
  simp only [invCipherRound, cipherRound, shiftRows_invShiftRows, subBytes_invSubBytes, addRoundKey_addRoundKey,
    mixColumns_invMixColumns]

/-- Decryption undoes encryption. -/
@[simp] theorem invCipher_cipher (k : KeySize) (ks : ScheduleStore) (S : Block) :
    invCipher k ks (cipher k ks S) = S := by
  have hrounds := foldl_reverse_foldl_of_step (w := shiftRows ∘ subBytes) (invCipherRound_cipherRound ks)
    (middleRounds k) (addRoundKey ks 0 S)
  simp only [Function.comp_apply] at hrounds
  rw [invCipher, cipher, addRoundKey_addRoundKey, hrounds, invShiftRows_shiftRows, invSubBytes_subBytes,
    addRoundKey_addRoundKey]

/-- Encryption undoes decryption. -/
@[simp] theorem cipher_invCipher (k : KeySize) (ks : ScheduleStore) (S : Block) :
    cipher k ks (invCipher k ks S) = S := by
  have hrounds := foldl_reverse_foldl_of_step (w := invSubBytes ∘ invShiftRows) (cipherRound_invCipherRound ks)
    (middleRounds k).reverse (addRoundKey ks k.nr S)
  simp only [Function.comp_apply, List.reverse_reverse] at hrounds
  rw [invCipher, cipher, addRoundKey_addRoundKey, hrounds, subBytes_invSubBytes, shiftRows_invShiftRows,
    addRoundKey_addRoundKey]

/-! The two outcomes of ENCBLK and of DECBLK (rules R162, R163). -/

theorem effect_encblk_of_nk_eq_none {s : State} (h : s.nk = none) : effect .encblk s = .error .noSchedule := by
  simp only [effect, h, Effect.underSchedule]

theorem effect_encblk {s : State} {k : KeySize} (hk : s.nk = some k) :
    effect .encblk s = .block (cipher k s.ksb s.blk) := by
  simp only [effect, hk, Effect.underSchedule]

theorem effect_decblk_of_nk_eq_none {s : State} (h : s.nk = none) : effect .decblk s = .error .noSchedule := by
  simp only [effect, h, Effect.underSchedule]

theorem effect_decblk {s : State} {k : KeySize} (hk : s.nk = some k) :
    effect .decblk s = .block (invCipher k s.ksb s.blk) := by
  simp only [effect, hk, Effect.underSchedule]

/-- A command that puts the old block back leaves the old state, with STATUS 0. -/
theorem exec_of_restores {i : Instr} {s : State} {S : Block}
    (h : effect i ((Effect.block S).apply s) = .block s.blk) :
    exec i ((Effect.block S).apply s) = .next { s with status := 0 } :=
  exec_of_effect_eq_block h

end Sys2Proof.Machine
end

section
/-! SUPPORT. The elementary commands of the ciphers as runs on BLK (45_cipher_engine.md rules R160, R161): under a
schedule each step of a cipher is a run of commands that replaces BLK and nothing else but STATUS. A run goes from a
state `s` whose BLK has become `S` to the same state with another block. -/

namespace Sys2Proof.Machine

/-- ADDROUNDKEY with a round number of the schedule now held (rule R153). -/
theorem afterInstr_addRoundKeyInstr {s : State} {k : KeySize} (hk : s.nk = some k) {r : Fin 15}
    (hr : r.val ≤ k.nr.val) :
    afterInstr s (addRoundKeyInstr r.val) = (Effect.block (addRoundKey s.ksb r s.blk)).apply s := by
  have hn : (BitVec.ofNat 8 r.val).toNat = r.val := Nat.mod_eq_of_lt (by omega)
  rw [afterInstr, addRoundKeyInstr, effect_addroundkey hk hn hr]

section
variable {s : State}

/-! The commands without an operand, after other commands on BLK (rules R147 to R152). -/

@[simp] theorem afterInstr_subbytes_apply_block (S : Block) :
    afterInstr ((Effect.block S).apply s) .subbytes = (Effect.block (subBytes S)).apply s := rfl

@[simp] theorem afterInstr_invsubbytes_apply_block (S : Block) :
    afterInstr ((Effect.block S).apply s) .invsubbytes = (Effect.block (invSubBytes S)).apply s := rfl

@[simp] theorem afterInstr_shiftrows_apply_block (S : Block) :
    afterInstr ((Effect.block S).apply s) .shiftrows = (Effect.block (shiftRows S)).apply s := rfl

@[simp] theorem afterInstr_invshiftrows_apply_block (S : Block) :
    afterInstr ((Effect.block S).apply s) .invshiftrows = (Effect.block (invShiftRows S)).apply s := rfl

@[simp] theorem afterInstr_mixcolumns_apply_block (S : Block) :
    afterInstr ((Effect.block S).apply s) .mixcolumns = (Effect.block (mixColumns S)).apply s := rfl

@[simp] theorem afterInstr_invmixcolumns_apply_block (S : Block) :
    afterInstr ((Effect.block S).apply s) .invmixcolumns = (Effect.block (invMixColumns S)).apply s := rfl

/-! The steps of the ciphers. -/

/-- Rounds one after the other: when the commands of each round do what `round` does to BLK, those of all rounds do
what the fold of `round` does. -/
theorem afterInstrs_flatMap_rounds {commands : Nat → List Instr} {round : Block → Fin 15 → Block}
    {rounds : List (Fin 15)}
    (h : ∀ r ∈ rounds, ∀ S,
      afterInstrs (commands r.val) ((Effect.block S).apply s) = (Effect.block (round S r)).apply s) (S : Block) :
    afterInstrs ((rounds.map Fin.val).flatMap commands) ((Effect.block S).apply s) =
      (Effect.block (rounds.foldl round S)).apply s := by
  induction rounds generalizing S with
  | nil => rfl
  | cons r rounds ih =>
    obtain ⟨hr, hrounds⟩ := List.forall_mem_cons.mp h
    rw [List.map_cons, List.flatMap_cons, afterInstrs_append, hr, ih hrounds, List.foldl_cons]

variable {k : KeySize} (hk : s.nk = some k)
include hk

/-- ADDROUNDKEY after other commands on BLK. -/
theorem afterInstr_addRoundKeyInstr_apply_block {r : Fin 15} (hr : r.val ≤ k.nr.val) (S : Block) :
    afterInstr ((Effect.block S).apply s) (addRoundKeyInstr r.val) =
      (Effect.block (addRoundKey s.ksb r S)).apply s :=
  afterInstr_addRoundKeyInstr (s := (Effect.block S).apply s) hk hr

/-- The four commands of a middle round of the forward cipher. -/
theorem afterInstrs_cipherRound {r : Fin 15} (hr : r.val ≤ k.nr.val) (S : Block) :
    afterInstrs [.subbytes, .shiftrows, .mixcolumns, addRoundKeyInstr r.val] ((Effect.block S).apply s) =
      (Effect.block (cipherRound s.ksb S r)).apply s := by
  simp only [afterInstrs_cons, afterInstrs_nil, afterInstr_subbytes_apply_block, afterInstr_shiftrows_apply_block,
    afterInstr_mixcolumns_apply_block, afterInstr_addRoundKeyInstr_apply_block hk hr, cipherRound]

/-- The four commands of a middle round of the inverse cipher. -/
theorem afterInstrs_invCipherRound {r : Fin 15} (hr : r.val ≤ k.nr.val) (S : Block) :
    afterInstrs [.invshiftrows, .invsubbytes, addRoundKeyInstr r.val, .invmixcolumns] ((Effect.block S).apply s) =
      (Effect.block (invCipherRound s.ksb S r)).apply s := by
  simp only [afterInstrs_cons, afterInstrs_nil, afterInstr_invshiftrows_apply_block, afterInstr_invsubbytes_apply_block,
    afterInstr_addRoundKeyInstr_apply_block hk hr, afterInstr_invmixcolumns_apply_block, invCipherRound]

/-- The commands of rule R160 do what the forward cipher does. -/
theorem afterInstrs_encryptionCommands :
    afterInstrs (encryptionCommands (k.nk + 6)) s = (Effect.block (cipher k s.ksb s.blk)).apply s := by
  have hfirst := afterInstr_addRoundKeyInstr (r := 0) hk (Nat.zero_le _)
  have hmiddle := afterInstrs_flatMap_rounds (s := s) (round := cipherRound s.ksb) (rounds := middleRounds k)
    (commands := fun r => [.subbytes, .shiftrows, .mixcolumns, addRoundKeyInstr r])
    fun _ hr => afterInstrs_cipherRound hk (le_nr_of_mem_middleRounds hr)
  have hlast := afterInstr_addRoundKeyInstr_apply_block hk le_rfl
  rw [middleRounds_map_val] at hmiddle
  rw [k.nr_val] at hlast
  rw [Fin.val_zero] at hfirst
  simp only [encryptionCommands, afterInstrs_append, afterInstrs_cons, afterInstrs_nil, hfirst, hmiddle,
    afterInstr_subbytes_apply_block, afterInstr_shiftrows_apply_block, hlast, cipher]

/-- The commands of rule R161 do what the inverse cipher does. -/
theorem afterInstrs_decryptionCommands :
    afterInstrs (decryptionCommands (k.nk + 6)) s = (Effect.block (invCipher k s.ksb s.blk)).apply s := by
  have hfirst := afterInstr_addRoundKeyInstr hk le_rfl
  have hmiddle := afterInstrs_flatMap_rounds (s := s) (round := invCipherRound s.ksb)
    (rounds := (middleRounds k).reverse)
    (commands := fun r => [.invshiftrows, .invsubbytes, addRoundKeyInstr r, .invmixcolumns])
    fun _ hr => afterInstrs_invCipherRound hk (le_nr_of_mem_middleRounds (List.mem_reverse.mp hr))
  have hlast := afterInstr_addRoundKeyInstr_apply_block (r := 0) hk (Nat.zero_le _)
  rw [k.nr_val] at hfirst
  rw [List.map_reverse, middleRounds_map_val] at hmiddle
  rw [Fin.val_zero] at hlast
  simp only [decryptionCommands, afterInstrs_append, afterInstrs_cons, afterInstrs_nil, hfirst, hmiddle,
    afterInstr_invshiftrows_apply_block, afterInstr_invsubbytes_apply_block, hlast, invCipher]

end

end Sys2Proof.Machine
end

section
/-! The cipher-engine family (45_cipher_engine.md): ENCBLK and DECBLK, by their functions on a block and by the
elementary commands, and that they undo each other. -/

namespace Sys2Proof.Machine

/-- Settles O42: the elementary commands leave the encrypted block, as ENCBLK does. -/
theorem encblkIsTheElementaryCommandsInOrder : Obligations.EncblkIsTheElementaryCommandsInOrder :=
  fun s _ hk => ⟨_, exec_eq_next_of_effect_eq (effect_encblk hk),
    (execAll_eq_next _ s).trans (congrArg _ (afterInstrs_encryptionCommands hk))⟩

/-- Settles O43: the elementary commands leave the decrypted block, as DECBLK does. -/
theorem decblkIsTheElementaryCommandsInOrder : Obligations.DecblkIsTheElementaryCommandsInOrder :=
  fun s _ hk => ⟨_, exec_eq_next_of_effect_eq (effect_decblk hk),
    (execAll_eq_next _ s).trans (congrArg _ (afterInstrs_decryptionCommands hk))⟩

/-- Settles O44: the second command finds the schedule the first found, and takes its rounds back one by one. -/
theorem encryptionAndDecryptionInvertEachOther : Obligations.EncryptionAndDecryptionInvertEachOther := by
  refine ⟨fun k ks S => ⟨invCipher_cipher k ks S, cipher_invCipher k ks S⟩, fun s k hk =>
    ⟨⟨_, exec_eq_next_of_effect_eq (effect_encblk hk), ?_⟩, ⟨_, exec_eq_next_of_effect_eq (effect_decblk hk), ?_⟩⟩⟩
  · have hdec := effect_decblk ((Effect.apply_block_nk (cipher k s.ksb s.blk) s).trans hk)
    rw [Effect.apply_block_ksb, Effect.apply_block_blk, invCipher_cipher] at hdec
    exact exec_of_restores hdec
  · have henc := effect_encblk ((Effect.apply_block_nk (invCipher k s.ksb s.blk) s).trans hk)
    rw [Effect.apply_block_ksb, Effect.apply_block_blk, cipher_invCipher] at henc
    exact exec_of_restores henc

/-- Settles O40: the word of ENCBLK, and its two outcomes. -/
theorem encblkEncryptsTheBlock : Obligations.EncblkEncryptsTheBlock :=
  ⟨decode_encode .encblk, fun _ hk => exec_eq_next_of_effect_eq (effect_encblk_of_nk_eq_none hk),
    fun _ _ hk => exec_of_effect_eq_block (effect_encblk hk)⟩

/-- Settles O41: the word of DECBLK, and its two outcomes. -/
theorem decblkDecryptsTheBlock : Obligations.DecblkDecryptsTheBlock :=
  ⟨decode_encode .decblk, fun _ hk => exec_eq_next_of_effect_eq (effect_decblk_of_nk_eq_none hk),
    fun _ _ hk => exec_of_effect_eq_block (effect_decblk hk)⟩

end Sys2Proof.Machine
end

section
/-! SUPPORT. The host's procedures by what they leave (46_block_codec_host.md rules R171 to R177): the chunks of a
buffer and the buffer of given blocks, a call over several chunks, and the core that holds a key and its declared
length. -/

namespace Sys2Proof.Machine

/-! Buffers as blocks (rule R172). -/

/-- The bytes of blocks 0 to `n − 1`, in order. -/
def blockBytes (g : Nat → Block) (n : Nat) : List Byte := (List.range n).flatMap fun j => (g j).toList

theorem blockBytes_succ (g : Nat → Block) (n : Nat) :
    blockBytes g (n + 1) = blockBytes g n ++ (g n).toList := by
  simp [blockBytes, List.range_succ]

@[simp] theorem blockBytes_length (g : Nat → Block) (n : Nat) : (blockBytes g n).length = 16 * n := by
  induction n with
  | zero => rfl
  | succ n ih => rw [blockBytes_succ, List.length_append, ih, Vector.length_toList, Nat.mul_succ]

theorem blockBytes_congr {g h : Nat → Block} {n : Nat} (hgh : ∀ j < n, g j = h j) :
    blockBytes g n = blockBytes h n :=
  List.flatMap_congr fun j hj => congrArg Vector.toList (hgh j (List.mem_range.mp hj))

/-- Byte `m` of block `j` stands at its place. -/
theorem chunkByte_blockBytes (g : Nat → Block) {n j m : Nat} (hj : j < n) (hm : m < 16) :
    chunkByte (blockBytes g n) j m = (g j)[m] := by
  induction n with
  | zero => omega
  | succ n ih =>
    rw [chunkByte, blockBytes_succ]
    obtain hlt | rfl := Nat.lt_succ_iff_lt_or_eq.mp hj
    · rw [List.getD_append _ _ _ _ (by rw [blockBytes_length]; omega)]
      exact ih hlt
    · rw [List.getD_append_right _ _ _ _ (by rw [blockBytes_length]; omega), blockBytes_length,
        Nat.add_sub_cancel_left, List.getD_eq_getElem _ _ (by rw [Vector.length_toList]; exact hm),
        Vector.getElem_toList]

/-- The chunks of a buffer of blocks are those blocks. -/
theorem chunkBlock_blockBytes (g : Nat → Block) {n j : Nat} (hj : j < n) : chunkBlock (blockBytes g n) j = g j := by
  apply Vector.ext
  intro m hm
  rw [chunkBlock, Vector.getElem_ofFn, chunkByte_blockBytes g hj hm]

theorem chunkByte_div_mod (buffer : List Byte) {i : Nat} (h : i < buffer.length) :
    chunkByte buffer (i / 16) (i % 16) = buffer[i] := by
  rw [chunkByte, Nat.div_add_mod, List.getD_eq_getElem _ _ h]

/-- Zero bytes at the end of a buffer are the padding its chunks have anyway. -/
theorem chunkByte_append_replicate_zero (buffer : List Byte) (z j m : Nat) :
    chunkByte (buffer ++ List.replicate z 0) j m = chunkByte buffer j m := by
  simp only [chunkByte]
  obtain h | h := Nat.lt_or_ge (16 * j + m) buffer.length
  · exact List.getD_append _ _ _ _ h
  · rw [List.getD_append_right _ _ _ _ h, List.getD_eq_default _ _ h, List.getD_eq_getElem?_getD,
      List.getElem?_getD_replicate_default_eq]

/-- The chunks of a buffer, one after the other, are the buffer padded with zeros. -/
theorem blockBytes_chunkBlock (buffer : List Byte) {n : Nat} (h : buffer.length ≤ 16 * n) :
    blockBytes (chunkBlock buffer) n = buffer ++ List.replicate (16 * n - buffer.length) 0 := by
  have hlength : (buffer ++ List.replicate (16 * n - buffer.length) (0 : Byte)).length = 16 * n := by
    rw [List.length_append, List.length_replicate]
    omega
  refine List.ext_getElem (by rw [hlength, blockBytes_length]) fun i hi hi' => ?_
  have hm : i % 16 < 16 := Nat.mod_lt i (by decide)
  rw [← chunkByte_div_mod _ hi, ← chunkByte_div_mod _ hi', chunkByte_append_replicate_zero,
    chunkByte_blockBytes _ (by rw [hlength] at hi'; omega) hm, chunkBlock, Vector.getElem_ofFn]

/-! A call over several chunks (rules R172, R173, R177). -/

/-- The first chunk that fails ends the call. -/
theorem processChunks_cons_of_error {command : Instr} {buffer : List Byte} {j : Nat} {s t : State} {e : StatusCode}
    (h : processChunk command buffer j s = .next (t, .error e)) (js : List Nat) :
    processChunks command buffer (j :: js) s = .next (t, .error e) := by
  simp only [processChunks, h, andThen]

/-- The bytes of a chunk that succeeds stand before those of the chunks after it. -/
theorem processChunks_cons_of_ok {command : Instr} {buffer : List Byte} {j : Nat} {js : List Nat} {s t u : State}
    {out more : List Byte} (hfirst : processChunk command buffer j s = .next (t, .ok out))
    (hrest : processChunks command buffer js t = .next (u, .ok more)) :
    processChunks command buffer (j :: js) s = .next (u, .ok (out ++ more)) := by
  simp only [processChunks, hfirst, andThen, hrest]

/-- Loading a chunk, one command other than KEXP and reading the block keep the schedule (rule R176). -/
theorem afterInstrs_chunk_schedule {command : Instr} (h : writtenItem (instrOpcode command) ≠ .schedule)
    (buffer : List Byte) (j : Nat) (s : State) :
    (afterInstrs (loadBlockInstrs buffer j ++ [command] ++ readBlockInstrs) s).nk = s.nk ∧
      (afterInstrs (loadBlockInstrs buffer j ++ [command] ++ readBlockInstrs) s).ksb = s.ksb := by
  refine afterInstrs_schedule s fun i hi => ?_
  simp only [loadBlockInstrs, readBlockInstrs, List.mem_append, List.mem_map, List.mem_singleton] at hi
  obtain (⟨m, -, rfl⟩ | rfl) | ⟨m, -, rfl⟩ := hi
  · exact Item.noConfusion
  · exact h
  · exact Item.noConfusion

section
variable {command : Instr} {f : KeySize → ScheduleStore → Block → Block}
  (heffect : ∀ s, effect command s = .underSchedule s.nk fun k => .block (f k s.ksb s.blk))
include heffect

/-- With no schedule a chunk is loaded and then fails with NoSchedule (rule R177). -/
theorem processChunk_of_nk_eq_none {s : State} (hs : s.nk = none) (buffer : List Byte) (j : Nat) :
    processChunk command buffer j s =
      .next (afterInstrs (loadBlockInstrs buffer j ++ [command]) s, .error (errorCode .noSchedule)) := by
  have hstatus : (afterInstrs (loadBlockInstrs buffer j ++ [command]) s).status = errorCode .noSchedule := by
    obtain ⟨hnk, -⟩ := afterInstrs_loadBlockInstrs_schedule buffer j s
    rw [afterInstrs_append, afterInstrs_cons, afterInstrs_nil, afterInstr, heffect, hnk, hs]
    rfl
  have hfailed : errorCode .noSchedule ≠ statusOk := by decide
  simp only [processChunk, runInstrs_eq_next, andThen, hstatus, if_neg hfailed]

/-- With no schedule a call with at least one chunk fails with NoSchedule. -/
theorem processChunks_range_of_nk_eq_none {s : State} (hs : s.nk = none) (buffer : List Byte) {n : Nat} (hn : 0 < n) :
    ∃ t, processChunks command buffer (List.range n) s = .next (t, .error (errorCode .noSchedule)) := by
  obtain ⟨n, rfl⟩ := Nat.exists_eq_add_one.mpr hn
  rw [List.range_succ_eq_map]
  exact ⟨_, processChunks_cons_of_error (processChunk_of_nk_eq_none heffect hs buffer 0) _⟩

/-- With a schedule every chunk succeeds and gives the cipher of its block; the schedule stays for the next chunk. -/
theorem processChunks_eq_next (hcommand : writtenItem (instrOpcode command) ≠ .schedule) (buffer : List Byte)
    {k : KeySize} (js : List Nat) (s : State) (hs : s.nk = some k) :
    ∃ t, processChunks command buffer js s =
        .next (t, .ok (js.flatMap fun j => (f k s.ksb (chunkBlock buffer j)).toList)) ∧
      t.nk = some k ∧ t.ksb = s.ksb := by
  induction js generalizing s with
  | nil => exact ⟨s, rfl, hs, rfl⟩
  | cons j js ih =>
    obtain ⟨hnk, hksb⟩ := afterInstrs_chunk_schedule hcommand buffer j s
    obtain ⟨t, hrest, htnk, htksb⟩ := ih _ (hnk.trans hs)
    rw [hksb] at hrest htksb
    exact ⟨t, processChunks_cons_of_ok (processChunk_eq_next heffect hs buffer j) hrest, htnk, htksb⟩

end

/-- With a schedule `encrypt` gives the cipher of every chunk, and the schedule stays (rule R172). -/
theorem encryptBuffer_eq_next {s : State} {k : KeySize} (hs : s.nk = some k) (buffer : List Byte) :
    ∃ t, encryptBuffer buffer s =
        .next (t, .ok (blockBytes (fun j => cipher k s.ksb (chunkBlock buffer j)) ((buffer.length + 15) / 16))) ∧
      t.nk = some k ∧ t.ksb = s.ksb :=
  processChunks_eq_next (f := cipher) (fun _ => rfl) Item.noConfusion buffer _ s hs

/-- With a schedule `decrypt` of whole blocks gives the inverse cipher of each of them (rule R173). -/
theorem decryptBuffer_blockBytes {s : State} {k : KeySize} (hs : s.nk = some k) (g : Nat → Block) (n : Nat) :
    ∃ t, decryptBuffer (blockBytes g n) s = .next (t, .ok (blockBytes (fun j => invCipher k s.ksb (g j)) n)) := by
  obtain ⟨t, ht, -⟩ := processChunks_eq_next (command := .decblk) (f := invCipher) (fun _ => rfl) Item.noConfusion
    (blockBytes g n) (List.range n) s hs
  have hchunks := blockBytes_congr fun j hj => congrArg (invCipher k s.ksb) (chunkBlock_blockBytes g (n := n) hj)
  refine ⟨t, ?_⟩
  rw [decryptBuffer, blockBytes_length, if_pos (Nat.mul_mod_right 16 n), Nat.mul_div_cancel_left n (by decide), ht]
  exact congrArg (fun out => Host.Outcome.next (t, Except.ok out)) hchunks

/-! The key and its declared length (rule R171). -/

/-- What every instruction of a run keeps, the run keeps. -/
theorem afterInstrs_keeps {α : Type} {g : State → α} {is : List Instr} (h : ∀ i ∈ is, ∀ s, g (afterInstr s i) = g s)
    (s : State) : g (afterInstrs is s) = g s := by
  induction is generalizing s with
  | nil => rfl
  | cons i is ih =>
    obtain ⟨hi, his⟩ := List.forall_mem_cons.mp h
    exact (ih his _).trans (hi s)

/-- The core after the host has written a key and declared its length. -/
def keyDeclared (keyBytes : List Byte) (s : State) : State :=
  afterInstr (afterInstrs (loadKeyInstrs keyBytes) s) (.setklen (BitVec.ofNat 8 (min keyBytes.length 255)))

theorem exists_eq_keywr_of_mem_loadKeyInstrs {keyBytes : List Byte} {i : Instr} (h : i ∈ loadKeyInstrs keyBytes) :
    ∃ idx val, i = .keywr idx val := by
  unfold loadKeyInstrs at h
  split at h
  · obtain ⟨n, hn, rfl⟩ := List.mem_mapIdx.mp h
    exact ⟨_, _, rfl⟩
  · exact absurd h List.not_mem_nil

/-- Loading a key and declaring its length touch neither the schedule nor BLK. -/
theorem keyDeclared_frame (keyBytes : List Byte) (s : State) :
    (keyDeclared keyBytes s).nk = s.nk ∧ (keyDeclared keyBytes s).ksb = s.ksb ∧
      (keyDeclared keyBytes s).blk = s.blk := by
  have hload : ∀ i ∈ loadKeyInstrs keyBytes, writtenItem (instrOpcode i) = .key := fun i hi => by
    obtain ⟨idx, val, rfl⟩ := exists_eq_keywr_of_mem_loadKeyInstrs hi
    rfl
  obtain ⟨hnk, hksb⟩ := afterInstrs_schedule s fun i hi => (hload i hi).trans_ne Item.noConfusion
  exact ⟨hnk, hksb, afterInstrs_keeps (g := State.blk)
    (fun i hi s => Effect.apply_blk s (effect_item_ne s ((hload i hi).trans_ne Item.noConfusion))) s⟩

theorem keyDeclared_keyLen_toNat (keyBytes : List Byte) (s : State) :
    (keyDeclared keyBytes s).keyLen.toNat = min keyBytes.length 255 :=
  Nat.mod_eq_of_lt (by omega)

/-- Writing the bytes of a key in order leaves each at its index of KEY. -/
theorem afterInstrs_mapIdx_keywr_key (keyBytes : List Byte) (s : State) (h : keyBytes.length ≤ 32) {i : Nat}
    (hi : i < keyBytes.length) :
    (afterInstrs (keyBytes.mapIdx fun n v => .keywr (BitVec.ofNat 8 n) v) s).key[i] = keyBytes[i] := by
  induction keyBytes using List.reverseRecOn with
  | nil => exact absurd hi (Nat.not_lt_zero i)
  | append_singleton l v ih =>
    rw [List.length_append, List.length_singleton] at h hi
    have hindex : (BitVec.ofNat 8 l.length).toNat = l.length := Nat.mod_eq_of_lt (by omega)
    have heffect := effect_keywr (i := ⟨l.length, h⟩) hindex v
    simp only [List.mapIdx_concat, afterInstrs_append, afterInstrs_cons, afterInstrs_nil, afterInstr, heffect]
    refine (Vector.getElem_set h (by omega)).trans ?_
    obtain hlt | rfl := Nat.lt_succ_iff_lt_or_eq.mp hi
    · rw [if_neg (by omega), List.getElem_append_left hlt]
      exact ih (by omega) hlt
    · rw [if_pos rfl, List.getElem_concat_length rfl]

/-- The raw key is the key that was loaded. -/
theorem rawKey_keyDeclared (k : KeySize) (K : Vector Byte k.keyBytes) (s : State) :
    rawKey k (keyDeclared K.toList s).key = K := by
  have hlength : K.toList.length ≤ 32 := Vector.length_toList.trans_le (keyBytes_le k)
  have hkey : (keyDeclared K.toList s).key =
      (afterInstrs (K.toList.mapIdx fun n v => .keywr (BitVec.ofNat 8 n) v) s).key :=
    congrArg (fun is => (afterInstrs is s).key) (if_pos hlength)
  apply Vector.ext
  intro i hi
  have hi' : i < K.toList.length := Vector.length_toList.symm ▸ hi
  simp only [rawKey_get, hkey, afterInstrs_mapIdx_keywr_key K.toList s hlength hi', Vector.getElem_toList]

/-- The answer for a selector that can be encoded is that of the KEXP after the key (rule R171). -/
theorem buildKeySchedule_of_effect_eq {keyBytes : List Byte} {bits : Nat} {s : State} {e : Effect}
    (hbits : bits ≤ 65535) (h : effect (.kexp (BitVec.ofNat 16 bits)) (keyDeclared keyBytes s) = e) :
    buildKeySchedule keyBytes bits s = .next (e.apply (keyDeclared keyBytes s), e.status) := by
  subst h
  rw [buildKeySchedule, if_neg (Nat.not_lt.mpr hbits), runInstrs_eq_next, afterInstrs_append]
  rfl

end Sys2Proof.Machine
end

section
/-! The host's family (46_block_codec_host.md): `buildKeySchedule`, `encrypt` and `decrypt`. -/

namespace Sys2Proof.Machine

/-! `encrypt` and `decrypt` (rules R172 to R177). -/

/-- Settles O57: the length is checked before any command. -/
theorem decryptRefusesPartialBlocks : Obligations.DecryptRefusesPartialBlocks :=
  fun _ _ h => if_neg h

/-- Settles O58: a buffer that is not empty has a first chunk, and the cipher command on it raises NoSchedule. -/
theorem hostCallsWithoutAScheduleFail : Obligations.HostCallsWithoutAScheduleFail := by
  intro b s hs hb
  have hlength := List.length_pos_iff.mpr hb
  refine ⟨processChunks_range_of_nk_eq_none (f := cipher) (fun _ => rfl) hs b (by omega), fun hblocks => ?_⟩
  rw [decryptBuffer, if_pos hblocks]
  exact processChunks_range_of_nk_eq_none (f := invCipher) (fun _ => rfl) hs b (by omega)

/-- Settles O56: `decrypt` takes the cipher of each chunk back, and the chunks together are the padded buffer. -/
theorem decryptReturnsThePaddedPlaintext : Obligations.DecryptReturnsThePaddedPlaintext := by
  intro b s k hs
  obtain ⟨t, henc, htnk, htksb⟩ := encryptBuffer_eq_next hs b
  obtain ⟨u, hdec⟩ := decryptBuffer_blockBytes htnk (fun j => cipher k s.ksb (chunkBlock b j)) ((b.length + 15) / 16)
  simp only [htksb, invCipher_cipher] at hdec
  have hpadded := blockBytes_chunkBlock b (n := (b.length + 15) / 16) (by omega)
  refine ⟨t, u, _, henc, blockBytes_length .., ?_⟩
  rw [blockBytes_length, ← hpadded]
  exact hdec

/-! `buildKeySchedule` (rule R171). -/

/-- Settles O55: the host answers for a selector KEXP cannot hold; otherwise KEXP finds the key bytes in KEY and their
number, capped at 255, in KEYLEN. -/
theorem buildKeyScheduleReportsAndBuilds : Obligations.BuildKeyScheduleReportsAndBuilds := by
  intro keyBytes bits s
  have hselector (h : bits ≤ 65535) : (BitVec.ofNat 16 bits).toNat = bits := Nat.mod_eq_of_lt (Nat.lt_succ_of_le h)
  have hfits (k : KeySize) : k.bits ≤ 65535 := by cases k <;> decide
  obtain ⟨hnk, hksb, hblk⟩ := keyDeclared_frame keyBytes s
  refine ⟨fun hbits => ?_, fun hbits hlen => ?_, fun k K hbits hkey => ?_⟩
  · obtain hgt | hle := Nat.lt_or_ge 65535 bits
    · exact ⟨s, if_pos hgt, rfl, rfl⟩
    · have hsize : keySize? (BitVec.ofNat 16 bits) = none := keySize?_eq_none.mpr fun k hk =>
        hbits (by simpa using KeySize.exists_eq_bits_iff.mp ⟨k, (hselector hle).symm.trans hk⟩)
      exact ⟨_, buildKeySchedule_of_effect_eq hle (effect_kexp_of_size_eq_none hsize _), hksb, hnk⟩
  · obtain ⟨k, rfl⟩ := KeySize.exists_eq_bits_iff.mpr (by simpa using hbits)
    have hkeyLen : (keyDeclared keyBytes s).keyLen.toNat ≠ k.keyBytes := by
      have := keyBytes_le k
      rw [k.bits_div_eight] at hlen
      rw [keyDeclared_keyLen_toNat]
      omega
    have heffect := effect_kexp_of_keyLen_ne (keySize?_eq_some.mpr (hselector (hfits k))) hkeyLen
    exact ⟨_, buildKeySchedule_of_effect_eq (hfits k) heffect, hksb, hnk⟩
  · subst hbits hkey
    have hkeyLen : (keyDeclared K.toList s).keyLen.toNat = k.keyBytes := by
      have := keyBytes_le k
      rw [keyDeclared_keyLen_toNat, Vector.length_toList]
      omega
    have heffect := effect_kexp (hselector (hfits k)) hkeyLen
    rw [rawKey_keyDeclared] at heffect
    exact ⟨_, buildKeySchedule_of_effect_eq (hfits k) heffect, rfl, Effect.holdsExpansion_apply_schedule k K _, hblk⟩

end Sys2Proof.Machine
end

section
/-! The exceptions family (60_exceptions.md) and the reset-and-hazards family (70_reset_and_hazards.md): the idle core,
the order of the checks, and a run of command words by their effects. -/

namespace Sys2Proof.Machine

/-! The idle core (rules R195, R203). -/

/-- Settles O11: with no event to take the step is the idle one. -/
theorem idleCoreKeepsItsState : Obligations.IdleCoreKeepsItsState :=
  fun _ hhost => takeEvent_nil hhost

/-! The order of the checks (rule R188). -/

/-- A word that decodes to no command raises IllegalCommand. -/
theorem wordEffect_of_forall_decode_ne_ok {cw : CommandWord} (h : ∀ i, decode cw ≠ .ok i) (s : State) :
    wordEffect cw s = .error .illegalCommand := by
  unfold wordEffect
  cases hcw : decode cw with
  | ok i => exact absurd hcw (h i)
  | error => rfl

/-- Settles O49: decoding is checked before any command, and each command's own statement gives its checks in order. -/
theorem errorsAreReportedInTheirOrder : Obligations.ErrorsAreReportedInTheirOrder := by
  obtain ⟨-, hksrdSchedule, hksrdOperand, -⟩ := ksrdReadsOneScheduleByte
  obtain ⟨-, hroundSchedule, hroundOperand, -⟩ := addroundkeyXorsTheRoundKey
  obtain ⟨-, hencblkSchedule, -⟩ := encblkEncryptsTheBlock
  obtain ⟨-, hdecblkSchedule, -⟩ := decblkDecryptsTheBlock
  obtain ⟨-, hkexpSize, hkexpLength, -⟩ := kexpBuildsTheScheduleOrChangesOnlyStatus
  refine ⟨fun s cw hcw => ?_,
    fun s n hnk => ⟨hksrdSchedule s n hnk, hroundSchedule s n hnk, hencblkSchedule s hnk, hdecblkSchedule s hnk⟩,
    fun s n k hnk => ⟨hksrdOperand s n k hnk, hroundOperand s n k hnk⟩, fun s imm16 hsize => ?_,
    fun s imm16 hsize hlen => hkexpLength s imm16 (by simpa using hsize) hlen⟩
  · rw [runCommand_eq_next_apply, wordEffect_of_forall_decode_ne_ok hcw]
    rfl
  · obtain ⟨h128, h192, h256⟩ : imm16.toNat ≠ 128 ∧ imm16.toNat ≠ 192 ∧ imm16.toNat ≠ 256 := by simpa using hsize
    exact hkexpSize s imm16 h128 h192 h256

/-! A run of command words (rules R202, R203). -/

/-- The state a command word leaves. -/
def afterWord (s : State) (cw : CommandWord) : State := (wordEffect cw s).apply s

@[simp] theorem afterWord_host (s : State) (cw : CommandWord) : (afterWord s cw).host = s.host :=
  Effect.apply_host (wordEffect cw s) s

/-- Any word is taken and does what its effect says; the host's later events stay. -/
theorem issueWord_eq_next (cw : CommandWord) (s : State) : issueWord cw s = .next (afterWord s cw) := by
  calc issueWord cw s
    _ = runCommand cw s := step_of_host_cons (s := presentEvent (.command cw) s) rfl
    _ = .next (afterWord s cw) := runCommand_eq_next_apply cw s

/-- A run starts with its first word, and with what the host observes after it. -/
theorem runWords_cons_eq_next {cw : CommandWord} {cws : List CommandWord} {s t : State} {obs : List Observation}
    (h : runWords cws (afterWord s cw) = .next (t, obs)) :
    runWords (cw :: cws) s = .next (t, observe (afterWord s cw) :: obs) := by
  simp only [runWords, issueWord_eq_next, andThen, h]

/-- A run ends with its last word, and with what the host observes after it. -/
theorem runWords_append_singleton (cws : List CommandWord) (cw : CommandWord) (s : State) :
    ∃ t obs, runWords cws s = .next (t, obs) ∧
      runWords (cws ++ [cw]) s = .next (afterWord t cw, obs ++ [observe (afterWord t cw)]) := by
  induction cws generalizing s with
  | nil => exact ⟨s, [], rfl, runWords_cons_eq_next rfl⟩
  | cons first cws ih =>
    obtain ⟨t, obs, hrun, hlonger⟩ := ih (afterWord s first)
    exact ⟨t, _, runWords_cons_eq_next hrun, runWords_cons_eq_next hlonger⟩

/-- Every run ends, with one observation per word, the last of them that of the final state. -/
theorem runWords_observes (cws : List CommandWord) (s : State) :
    ∃ t obs, runWords cws s = .next (t, obs) ∧ obs.length = cws.length ∧ t.host = s.host ∧
      (cws ≠ [] → obs.getLast? = some (observe t)) := by
  induction cws using List.reverseRecOn with
  | nil => exact ⟨s, [], rfl, rfl, rfl, fun h => absurd rfl h⟩
  | append_singleton cws cw ih =>
    obtain ⟨t, obs, hrun, hlength, hhost, -⟩ := ih
    obtain ⟨t', obs', hrun', hlonger⟩ := runWords_append_singleton cws cw s
    obtain ⟨rfl, rfl⟩ : t = t' ∧ obs = obs' := by simpa [hrun] using hrun'
    exact ⟨_, _, hlonger, by simp [hlength], (afterWord_host t cw).trans hhost, fun _ => List.getLast?_concat⟩

/-- Settles O60: a word at the end of a run is issued in the state the run leaves. -/
theorem runsEndWithOneObservationPerCommand : Obligations.RunsEndWithOneObservationPerCommand := by
  refine ⟨fun _ => rfl, fun cws cw s => ?_, runWords_observes⟩
  obtain ⟨t, obs, hrun, hlonger⟩ := runWords_append_singleton cws cw s
  exact ⟨t, obs, _, hrun, issueWord_eq_next cw t, hlonger⟩

end Sys2Proof.Machine
end
